-- ==== Sys2Proof/Word.lean ====
section
/-! DEFINITION. The bit vectors the MAU moves: the 32-bit words of its register window and of its commands
(spec/20_memory.md R50, spec/30_encoding.md R80), its 256-bit operands (spec/00_scope.md R7), and the 12-bit byte
offset inside its 4 KiB window (R50, R67). -/

namespace Sys2Proof

/-- A word of the register window, or a command word: 32 bits, bit 0 the least significant (R14). -/
abbrev Word := BitVec 32

/-- The contents of an operand register: W = 256 bits, unsigned (R7). -/
abbrev Operand := BitVec 256

/-- A byte offset from BASE, in [0, 0x1000) (R50). -/
abbrev Offset := BitVec 12

end Sys2Proof
end

