-- ==== Sys2Proof/Syntax.lean ====
section
/-! DEFINITION. The MAU's syntax: its seven commands, the raw fields of a command word, the assembler's lines, the host's
bus transactions and their answers, and the turns of an interleaving. -/

namespace Sys2Proof

/-- The modulus a command names: its field M (spec/30_encoding.md R82). -/
inductive Modulus where
  | p   -- M = 0, the field prime
  | n   -- M = 1, the curve order
  deriving DecidableEq, Repr

/-- An operand register index 0..15 (R83). -/
abbrev Reg := Fin 16

/-- A command of the MAU: one constructor per row of the opcode table (R86). The modulus is always explicit (R4), RB is a
register and never an immediate (R83), and INV and RED have no RB (R85). -/
inductive Instr where
  | add (m : Modulus) (rd ra rb : Reg)
  | sub (m : Modulus) (rd ra rb : Reg)
  | mul (m : Modulus) (rd ra rb : Reg)
  | div (m : Modulus) (rd ra rb : Reg)
  | inv (m : Modulus) (rd ra : Reg)
  | exp (m : Modulus) (rd ra rb : Reg)
  | red (m : Modulus) (rd ra : Reg)
  deriving DecidableEq, Repr

/-- The fields of a command word in the one format C3R, before any check (R81). -/
structure C3R where
  opc  : BitVec 4    -- bits 3:0
  m    : BitVec 1    -- bit 4
  rsv0 : BitVec 3    -- bits 7:5
  rd   : BitVec 4    -- bits 11:8
  ra   : BitVec 4    -- bits 15:12
  rb   : BitVec 4    -- bits 19:16
  rsv1 : BitVec 12   -- bits 31:20
  deriving DecidableEq, Repr

/-- Why a command word is Illegal (R88). -/
inductive IllegalReason where
  | reservedBits   -- a 1 bit in RSV0 or RSV1
  | opcode         -- OPC = 0 or OPC in 8..15
  | unusedField    -- RB ≠ 0 for INV or RED
  deriving DecidableEq, Repr

/-- What a command word decodes to: "every 32-bit word decodes either to Illegal or to exactly one command" (R87). -/
inductive Decoded where
  | illegal (why : IllegalReason)
  | command (i : Instr)
  deriving DecidableEq, Repr

/-- The assembler's pseudo-instructions (R90). -/
inductive Pseudo where
  | sqr (m : Modulus) (vd va : Reg)
  | dbl (m : Modulus) (vd va : Reg)
  | pow (m : Modulus) (vd va vb : Reg)
  | mov (m : Modulus) (vd va : Reg)
  | chk (m : Modulus) (va : Reg)
  | neg (m : Modulus) (vd va vz : Reg)
  deriving DecidableEq, Repr

/-- A line of the assembler: a command, a pseudo-instruction, or a raw word, "illegal ones included" (R89). -/
inductive AsmLine where
  | command (i : Instr)
  | pseudo (q : Pseudo)
  | word (c : Word)
  deriving DecidableEq, Repr

/-- A bus transaction of the host (spec/20_memory.md R50). The size is in bytes. A write's data are the 32 bits of a legal
write, since a write of another size is refused whatever it carries (R51; log 11). -/
inductive Transaction where
  | read (off : Offset) (size : Nat)
  | write (off : Offset) (size : Nat) (v : Word)
  deriving DecidableEq, Repr

/-- What the host gets back from a transaction (R50, R77). -/
inductive Reply where
  | data (w : Word)
  | ok
  | busError
  deriving DecidableEq, Repr

/-- A word of the register window (R54): what a mapped, aligned offset names. Word j of a register counts from its most
significant end (R58). -/
inductive WindowWord where
  | ctrl
  | status
  | cmd
  | errcode
  | errinfo
  | operand (i : Reg) (j : Fin 8)
  | modp (j : Fin 8)
  | modn (j : Fin 8)
  deriving DecidableEq, Repr

/-- One step of an interleaving (R70): a host's transaction, the unit agent's completion of the pending command, or a hard
reset by the platform (spec/70_reset_and_hazards.md R170). -/
inductive Turn where
  | host (t : Transaction)
  | unit
  | hardReset
  deriving DecidableEq, Repr

/-- The errors the MAU raises (spec/60_exceptions.md R141). NONE, code 0, is the absence of one. -/
inductive ErrorCode where
  | illegalCommand
  | operandNotReduced
  | inversionOfZero
  | cmdWhileBusy
  | writeWhileBusy
  deriving DecidableEq, Repr

end Sys2Proof
end

