-- ==== Sys2Proof/Decode.lean ====
section
/-! DEFINITION. Decoding a command word (spec/30_encoding.md R81, R87), encoding a command (R81, R86), and the assembler's
expansions and text (R89, R90). -/

namespace Sys2Proof

/-- The fields of a command word (R81). -/
def C3R.ofWord (c : Word) : C3R where
  opc  := c.extractLsb' 0 4
  m    := c.extractLsb' 4 1
  rsv0 := c.extractLsb' 5 3
  rd   := c.extractLsb' 8 4
  ra   := c.extractLsb' 12 4
  rb   := c.extractLsb' 16 4
  rsv1 := c.extractLsb' 20 12

/-- A command word from its fields, bit 31 on the left (R81). -/
def C3R.toWord (f : C3R) : Word :=
  f.rsv1 ++ f.rb ++ f.ra ++ f.rd ++ f.rsv0 ++ f.m ++ f.opc

/-- M = 0 selects p and M = 1 selects n (R82). -/
def Modulus.ofBit (m : BitVec 1) : Modulus := if m = 0#1 then .p else .n

/-- The bit M of a modulus (R82). -/
def Modulus.bit : Modulus → BitVec 1
  | .p => 0#1
  | .n => 1#1

/-- A register field names x[index], zero-extended and never scaled (R83). -/
def Reg.ofField (f : BitVec 4) : Reg := f.toFin

/-- The field of a register index (R83). -/
def Reg.field (r : Reg) : BitVec 4 := BitVec.ofFin r

/-- The command that legal fields stand for (R86), RB read as unused for INV and RED (R85). -/
def C3R.command (f : C3R) : Option Instr :=
  let m := Modulus.ofBit f.m
  let rd := Reg.ofField f.rd
  let ra := Reg.ofField f.ra
  let rb := Reg.ofField f.rb
  match f.opc.toNat with
  | 1 => some (.add m rd ra rb)
  | 2 => some (.sub m rd ra rb)
  | 3 => some (.mul m rd ra rb)
  | 4 => some (.div m rd ra rb)
  | 5 => some (.inv m rd ra)
  | 6 => some (.exp m rd ra rb)
  | 7 => some (.red m rd ra)
  | _ => none

/-- R87's `decode`, its tests in the order written there. Total: every word is Illegal, with R88's reason, or one command. -/
def decode (c : Word) : Decoded :=
  let f := C3R.ofWord c
  if f.rsv0 ≠ 0#3 ∨ f.rsv1 ≠ 0#12 then .illegal .reservedBits
  else match f.command with
    | none => .illegal .opcode
    | some i => if (f.opc = 5#4 ∨ f.opc = 7#4) ∧ f.rb ≠ 0#4 then .illegal .unusedField else .command i

/-- The fields of a command: its opcode (R86), M, and its registers, every reserved or unused field 0 (R81, R85). -/
def Instr.fields : Instr → C3R
  | .add m rd ra rb => ⟨0x1#4, m.bit, 0#3, Reg.field rd, Reg.field ra, Reg.field rb, 0#12⟩
  | .sub m rd ra rb => ⟨0x2#4, m.bit, 0#3, Reg.field rd, Reg.field ra, Reg.field rb, 0#12⟩
  | .mul m rd ra rb => ⟨0x3#4, m.bit, 0#3, Reg.field rd, Reg.field ra, Reg.field rb, 0#12⟩
  | .div m rd ra rb => ⟨0x4#4, m.bit, 0#3, Reg.field rd, Reg.field ra, Reg.field rb, 0#12⟩
  | .inv m rd ra => ⟨0x5#4, m.bit, 0#3, Reg.field rd, Reg.field ra, 0#4, 0#12⟩
  | .exp m rd ra rb => ⟨0x6#4, m.bit, 0#3, Reg.field rd, Reg.field ra, Reg.field rb, 0#12⟩
  | .red m rd ra => ⟨0x7#4, m.bit, 0#3, Reg.field rd, Reg.field ra, 0#4, 0#12⟩

/-- The command word of a command (R81). -/
def encode (i : Instr) : Word := i.fields.toWord

/-- R90's expansions, each to exactly one command. -/
def Pseudo.expand : Pseudo → Instr
  | .sqr m vd va => .mul m vd va va
  | .dbl m vd va => .add m vd va va
  | .pow m vd va vb => .exp m vd va vb
  | .mov m vd va => .red m vd va
  | .chk m va => .red m va va
  | .neg m vd va vz => .sub m vd vz va

/-- The word an assembler line stands for (R89, R90). -/
def AsmLine.assemble : AsmLine → Word
  | .command i => encode i
  | .pseudo q => encode q.expand
  | .word c => c

/-- `<mod>`: `p` for M = 0, `n` for M = 1 (R89). -/
def Modulus.text : Modulus → String
  | .p => "p"
  | .n => "n"

/-- The assembler's register names `v0`..`v15` (R89). -/
def Reg.text (r : Reg) : String := "v" ++ toString r.val

/-- `<mnemonic>.<mod> v<RD>, v<RA>, v<RB>` (R89). -/
def asmText3 (name : String) (m : Modulus) (a b c : Reg) : String :=
  name ++ "." ++ m.text ++ " " ++ Reg.text a ++ ", " ++ Reg.text b ++ ", " ++ Reg.text c

/-- `<mnemonic>.<mod> v<RD>, v<RA>` (R89). -/
def asmText2 (name : String) (m : Modulus) (a b : Reg) : String :=
  name ++ "." ++ m.text ++ " " ++ Reg.text a ++ ", " ++ Reg.text b

/-- A command in the assembler's syntax (R89). -/
def Instr.text : Instr → String
  | .add m rd ra rb => asmText3 "add" m rd ra rb
  | .sub m rd ra rb => asmText3 "sub" m rd ra rb
  | .mul m rd ra rb => asmText3 "mul" m rd ra rb
  | .div m rd ra rb => asmText3 "div" m rd ra rb
  | .inv m rd ra => asmText2 "inv" m rd ra
  | .exp m rd ra rb => asmText3 "exp" m rd ra rb
  | .red m rd ra => asmText2 "red" m rd ra

/-- A pseudo-instruction in the assembler's syntax (R90). -/
def Pseudo.text : Pseudo → String
  | .sqr m vd va => asmText2 "sqr" m vd va
  | .dbl m vd va => asmText2 "dbl" m vd va
  | .pow m vd va vb => asmText3 "pow" m vd va vb
  | .mov m vd va => asmText2 "mov" m vd va
  | .chk m va => "chk." ++ m.text ++ " " ++ Reg.text va
  | .neg m vd va vz => asmText3 "neg" m vd va vz

/-- A hexadecimal digit of a `.word` directive; upper case, as R89's `0xXXXXXXXX` and its examples print. -/
def hexDigit (d : BitVec 4) : Char :=
  if d.toNat < 10 then Char.ofNat (48 + d.toNat) else Char.ofNat (55 + d.toNat)

/-- The eight digits of a word, most significant first (R14). -/
def hexText (c : Word) : String :=
  String.ofList ([7, 6, 5, 4, 3, 2, 1, 0].map fun k => hexDigit (c.extractLsb' (4 * k) 4))

/-- A line of the assembler as text (R89). -/
def AsmLine.text : AsmLine → String
  | .command i => i.text
  | .pseudo q => q.text
  | .word c => ".word 0x" ++ hexText c

/-- The host's question: the instruction the decoder reads from the table's word. A command is always 32 bits (R80), its bits
above `nbits` 0. -/
def decodeTableWord (nbits w : Nat) : Option Instr :=
  match decode (BitVec.ofNat 32 (w % 2 ^ nbits)) with
  | .illegal _ => none
  | .command i => some i

end Sys2Proof
end

