-- ==== Sys2Proof/Config.lean ====
section
/-! DEFINITION. What is fixed for one MAU and is not state (spec/10_state.md R42): the two moduli and BASE. The latency
LAT, the third parameter of R42, is not a number here: the list of turns in State says when the pending command completes
(log 1). -/

namespace Sys2Proof.Config

/-- The secp256k1 field prime p = 2^256 - 2^32 - 977 (spec/00_scope.md R9), which MODP reads as (R24). -/
def fieldPrime : Nat :=
  0xFFFFFFFFFFFFFFFFFFFFFFFFFFFFFFFFFFFFFFFFFFFFFFFFFFFFFFFEFFFFFC2F

/-- The secp256k1 curve order n (spec/00_scope.md R10), which MODN reads as (R24). -/
def curveOrder : Nat :=
  0xFFFFFFFFFFFFFFFFFFFFFFFFFFFFFFFEBAAEDCE6AF48A03BBFD25E8CD0364141

/-- Which 4 KiB page of the host's address space the window is mapped at: the platform's choice (R11), so it has no
body. DESIGN CHOICE, safe (log 12). -/
opaque basePage : Nat

/-- BASE, "a multiple of 0x1000" (R11). -/
def base : Nat := 0x1000 * basePage

end Sys2Proof.Config
end

