-- ==== Sys2Proof/Machine/State.lean ====
section
/-! DEFINITION. The state of the MAU (spec/10_state.md), with the two fields of the model's own that say what comes next
and what the host has got, the reasons a step could stop, and the state after reset (R41). -/

namespace Sys2Proof.Machine

/-- Why a step faults: never. The MAU "has no traps, exception vectors or handlers" (spec/60_exceptions.md R140): an error is
recorded and the machine goes on, and a bus error is an answer to the host (R152). The type has no constructor, so no
meaning can fault. Safe. -/
inductive Fault where
  deriving DecidableEq, Repr

/-- Why a step is refused. -/
inductive Refusal where
  /-- Raised by `exec` for an instruction that has no meaning yet: no arm uses it, every command has its meaning. Safe: a
  refused step proves nothing about the hardware. -/
  | notModelled (mnemonic : String)
  deriving DecidableEq, Repr

/-- Everything the spec gives the MAU (R20 to R41). STATUS.BUSY and irq are computed (R27, R40), MODP and MODN are constants
of Config (R24, R42). -/
structure State where
  /-- x[0]..x[15] (R21). -/
  x : Vector Operand 16
  /-- CTRL.DONEIE, bit 1 (R25). -/
  doneie : Bool
  /-- CTRL.ERRIE, bit 2 (R25). -/
  errie : Bool
  /-- STATUS.DONE, bit 1 (R28). -/
  done : Bool
  /-- STATUS.ERR, bit 2 (R29). -/
  err : Bool
  /-- STATUS.EOVF, bit 3 (R30). -/
  eovf : Bool
  /-- STATUS.Z, bit 8 (R31). -/
  z : Bool
  /-- STATUS.GE, bit 9 (R31). -/
  ge : Bool
  /-- STATUS.HI, bit 10 (R31). -/
  hi : Bool
  /-- LASTCMD (R33). -/
  lastcmd : Word
  /-- ERRCODE (R34). -/
  errcode : Word
  /-- ERRINFO (R35). -/
  errinfo : Word
  /-- PENDING: none, or the issued command word (R36). -/
  pending : Option Word
  /-- The model's own: the steps of the interleaving still to come, next first (spec/20_memory.md R70). DESIGN CHOICE, safe
  (log 1). -/
  agenda : List Turn
  /-- The model's own: the answers the host has got, newest first (R50). DESIGN CHOICE, safe (log 4). -/
  replies : List Reply
  deriving DecidableEq, Repr

/-- The state after reset (R41). The model's own two fields are empty (log 13). -/
def State.reset : State where
  x := Vector.replicate 16 0#256
  doneie := false
  errie := false
  done := false
  err := false
  eovf := false
  z := false
  ge := false
  hi := false
  lastcmd := 0#32
  errcode := 0#32
  errinfo := 0#32
  pending := none
  agenda := []
  replies := []

end Sys2Proof.Machine
end

