-- ==== Sys2Proof/Machine/Operands.lean ====
section
/-! DEFINITION. Operands: the registers as integers, the modulus a command names, the check that an operand is reduced, and
the 32-bit words of a 256-bit value as the window shows them. -/

namespace Sys2Proof.Machine

/-- MOD(M): p when M = 0 and n when M = 1 (spec/00_scope.md R15). -/
def modulus : Modulus → Nat
  | .p => Config.fieldPrime
  | .n => Config.curveOrder

/-- x[i] as a 256-bit unsigned integer (R15). No register is hardwired (spec/10_state.md R21). -/
def State.readReg (s : State) (i : Reg) : Nat := (s.x[i.val]).toNat

/-- `x[i] <- v` for a value v in [0, 2^256) (R15). -/
def State.writeReg (i : Reg) (v : Nat) (s : State) : State :=
  { s with x := s.x.set i.val (BitVec.ofNat 256 v) }

/-- Every operand of the list is reduced modulo m (R16). -/
def allReduced (m : Nat) (operands : List Nat) : Bool := operands.all (· < m)

/-- Word j of a 256-bit value, `v[255 − 32·j : 224 − 32·j]`: word 0 is the most significant (spec/20_memory.md R58, R60). -/
def wordOf (v : Operand) (j : Fin 8) : Word := v.extractLsb' (224 - 32 * j.val) 32

/-- `v[255 − 32·j : 224 − 32·j] <- w`, "the other 224 bits" unchanged (R59). -/
def setWordOf (v : Operand) (j : Fin 8) (w : Word) : Operand :=
  (v &&& ~~~((0xFFFFFFFF#256) <<< (224 - 32 * j.val))) ||| ((w.setWidth 256) <<< (224 - 32 * j.val))

end Sys2Proof.Machine
end

