-- ==== Sys2Proof/Machine/Flags.lean ====
section
/-! DEFINITION. The result flags (spec/40_modarith.md R104, spec/10_state.md R31), the STATUS and CTRL words the host reads
(R56, R55), and the interrupt output (R40). -/

namespace Sys2Proof.Machine

/-- `Z = (r = 0)` (R104). -/
def flagZ (r : Nat) : Bool := r == 0

/-- `HI = (r > (m − 1) div 2)` (R104). -/
def flagHi (r m : Nat) : Bool := (m - 1) / 2 < r

/-- The three flags after a command that produces the result r (R104). -/
def State.setFlags (r m : Nat) (ge : Bool) (s : State) : State :=
  { s with z := flagZ r, ge := ge, hi := flagHi r m }

/-- STATUS.BUSY "is 1 exactly when PENDING ≠ none" (R27). -/
def State.busy (s : State) : Bool := s.pending.isSome

/-- STATUS as the host reads it: `zext_32(HI ‖ GE ‖ Z ‖ 0b0000 ‖ EOVF ‖ ERR ‖ DONE ‖ BUSY)` (R56). -/
def State.statusWord (s : State) : Word :=
  (BitVec.ofBool s.hi ++ BitVec.ofBool s.ge ++ BitVec.ofBool s.z ++ 0b0000#4 ++ BitVec.ofBool s.eovf ++
    BitVec.ofBool s.err ++ BitVec.ofBool s.done ++ BitVec.ofBool s.busy).setWidth 32

/-- CTRL as the host reads it: `zext_32(ERRIE ‖ DONEIE ‖ 0)` (R55). -/
def State.ctrlWord (s : State) : Word :=
  (BitVec.ofBool s.errie ++ BitVec.ofBool s.doneie ++ 0#1).setWidth 32

/-- The interrupt output, `(STATUS.DONE ∧ CTRL.DONEIE) ∨ (STATUS.ERR ∧ CTRL.ERRIE)` (R40). -/
def State.irq (s : State) : Bool := (s.done && s.doneie) || (s.err && s.errie)

end Sys2Proof.Machine
end

