-- ==== Sys2Proof/Machine/Ops.lean ====
section
/-! DEFINITION. The shared operations: recording an error (the analogue of taking an exception, spec/60_exceptions.md R145),
acknowledging it (the analogue of the return, R149), the two ways a command completes (spec/40_modarith.md R105, R106), and
the reset of the unit (spec/70_reset_and_hazards.md R170, R172). -/

namespace Sys2Proof.Machine

/-- The code of an error (R141). -/
def errorCode : ErrorCode → BitVec 8
  | .illegalCommand => 0x01#8
  | .operandNotReduced => 0x02#8
  | .inversionOfZero => 0x03#8
  | .cmdWhileBusy => 0x04#8
  | .writeWhileBusy => 0x05#8

/-- `record(E, info)`: the first error since ERR was last cleared is kept, a later one only sets EOVF (R145, R146). -/
def State.record (e : ErrorCode) (info : Word) (s : State) : State :=
  if s.err then { s with eovf := true }
  else { s with err := true, errcode := (errorCode e).setWidth 32, errinfo := info }

/-- The W1C write of STATUS with data w: DONE by bit 1, ERR with ERRCODE and ERRINFO by bit 2, EOVF by bit 3, every other bit
ignored (spec/10_state.md R32). -/
def State.acknowledge (w : Word) (s : State) : State :=
  { s with
    done := s.done && !w.getLsbD 1
    err := s.err && !w.getLsbD 2
    errcode := if w.getLsbD 2 then 0#32 else s.errcode
    errinfo := if w.getLsbD 2 then 0#32 else s.errinfo
    eovf := s.eovf && !w.getLsbD 3 }

/-- What every completion does: PENDING <- none, hence BUSY <- 0, and DONE <- 1 (R105, R106). -/
def State.retire (s : State) : State := { s with pending := none, done := true }

/-- A completion that raises an error with the command word as its information (R106). -/
def State.completeError (e : ErrorCode) (c : Word) (s : State) : State := (s.record e c).retire

/-- A completion that writes the result r and the flags (R105). -/
def State.completeResult (m : Nat) (rd : Reg) (r : Nat) (ge : Bool) (s : State) : State :=
  ((s.writeReg rd r).setFlags r m ge).retire

/-- The part of R103 that follows the decoding, for one command: `need` lists the operands that must be reduced, `zeroDivisor`
says that the command would invert 0, and (r, ge) is its value. The checks stand in R103's order (R147). -/
def State.finish (c : Word) (m : Nat) (rd : Reg) (need : List Nat) (zeroDivisor : Bool) (r : Nat) (ge : Bool)
    (s : State) : State :=
  if allReduced m need then
    if zeroDivisor then s.completeError .inversionOfZero c else s.completeResult m rd r ge
  else s.completeError .operandNotReduced c

/-- A reset of the unit, hard or soft: every piece of the MAU's state at its value of R41. What the host has got and what it
will do next are not the MAU's (log 17). -/
def State.unitReset (s : State) : State := { State.reset with agenda := s.agenda, replies := s.replies }

end Sys2Proof.Machine
end

