-- ==== Sys2Proof/Machine/ModArith.lean ====
section
/-! DEFINITION. The seven modular-arithmetic commands (spec/40_modarith.md R107 to R113): the value of each, and its meaning at
the completion step. Every value is computed exactly on integers and reduced once (R114). -/

namespace Sys2Proof.Machine

/-- Square and multiply over the bits of e, lowest first: `acc · b^e mod m` for an e of at most k bits. -/
def powModLoop (m : Nat) : Nat → Nat → Nat → Nat → Nat
  | 0, _, _, acc => acc
  | k + 1, b, e, acc => powModLoop m k (b * b % m) (e / 2) (if e % 2 = 1 then acc * b % m else acc)

/-- `pow(a, e) mod m` for e in [0, 2^256) (R112, spec/00_scope.md R18). The literal power cannot be evaluated, so this is a
ladder, which R100 allows; `Laws.powMod_eq_pow_mod` proves it equal to the power (log 9). -/
def powMod (a e m : Nat) : Nat := powModLoop m 256 a e (1 % m)

/-- `inv_m(a)`: "By Fermat's little theorem it equals a^(m−2) mod m" (R17). Meant for 1 ≤ a < m; the commands that would invert
0 raise an error and never use it (log 8). -/
def invMod (a m : Nat) : Nat := powMod a (m - 2) m

/-- `value(ADD, a, b, m)` (R107). -/
def valueAdd (a b m : Nat) : Nat := (a + b) % m

/-- `value(SUB, a, b, m)`: the remainder of the integer a − b, never negative (R108, R13). -/
def valueSub (a b m : Nat) : Nat := (((a : Int) - (b : Int)) % (m : Int)).toNat

/-- `value(MUL, a, b, m)`: the full product, reduced once (R109). -/
def valueMul (a b m : Nat) : Nat := a * b % m

/-- `value(DIV, a, b, m)` for b ≠ 0 (R110). -/
def valueDiv (a b m : Nat) : Nat := a * invMod b m % m

/-- `value(INV, a, _, m)` for a ≠ 0 (R111). -/
def valueInv (a m : Nat) : Nat := invMod a m

/-- `value(EXP, a, e, m)` (R112). -/
def valueExp (a e m : Nat) : Nat := powMod a e m

/-- `value(RED, a, _, m)`, its residue (R113). -/
def valueRed (a m : Nat) : Nat := a % m

/-- `value(RED, a, _, m)`, its ge: `a ≥ m` (R113). -/
def geRed (a m : Nat) : Bool := m ≤ a

/-- ADD (R107). The information word of an error is the command's own word, which is PENDING's on every step (log 5). -/
def execAdd (m : Modulus) (rd ra rb : Reg) (s : State) : Host.Outcome State Fault Refusal :=
  let a := s.readReg ra
  let b := s.readReg rb
  .next (s.finish (encode (.add m rd ra rb)) (modulus m) rd [a, b] false (valueAdd a b (modulus m)) false)

/-- SUB (R108). -/
def execSub (m : Modulus) (rd ra rb : Reg) (s : State) : Host.Outcome State Fault Refusal :=
  let a := s.readReg ra
  let b := s.readReg rb
  .next (s.finish (encode (.sub m rd ra rb)) (modulus m) rd [a, b] false (valueSub a b (modulus m)) false)

/-- MUL (R109). -/
def execMul (m : Modulus) (rd ra rb : Reg) (s : State) : Host.Outcome State Fault Refusal :=
  let a := s.readReg ra
  let b := s.readReg rb
  .next (s.finish (encode (.mul m rd ra rb)) (modulus m) rd [a, b] false (valueMul a b (modulus m)) false)

/-- DIV (R110): INVERSION_OF_ZERO for b = 0, "for every a including a = 0". -/
def execDiv (m : Modulus) (rd ra rb : Reg) (s : State) : Host.Outcome State Fault Refusal :=
  let a := s.readReg ra
  let b := s.readReg rb
  .next (s.finish (encode (.div m rd ra rb)) (modulus m) rd [a, b] (b == 0) (valueDiv a b (modulus m)) false)

/-- INV (R111): INVERSION_OF_ZERO for a = 0. -/
def execInv (m : Modulus) (rd ra : Reg) (s : State) : Host.Outcome State Fault Refusal :=
  let a := s.readReg ra
  .next (s.finish (encode (.inv m rd ra)) (modulus m) rd [a] (a == 0) (valueInv a (modulus m)) false)

/-- EXP (R112): the base must be reduced, the exponent is "not checked against m". -/
def execExp (m : Modulus) (rd ra rb : Reg) (s : State) : Host.Outcome State Fault Refusal :=
  let a := s.readReg ra
  let e := s.readReg rb
  .next (s.finish (encode (.exp m rd ra rb)) (modulus m) rd [a] false (valueExp a e (modulus m)) false)

/-- RED (R113): any operand, and GE says whether it was ≥ m. -/
def execRed (m : Modulus) (rd ra : Reg) (s : State) : Host.Outcome State Fault Refusal :=
  let a := s.readReg ra
  .next (s.finish (encode (.red m rd ra)) (modulus m) rd [] false (valueRed a (modulus m)) (geRed a (modulus m)))

end Sys2Proof.Machine
end

