-- ==== Sys2Proof/Machine/Dispatch.lean ====
section
/-! DEFINITION. One arm per command: the completion step of a command that decodes (spec/40_modarith.md R103). -/

namespace Sys2Proof.Machine

def exec (i : Instr) (s : State) : Host.Outcome State Fault Refusal :=
  match i with
  | .add m rd ra rb => Sys2Proof.Machine.execAdd m rd ra rb s
  | .sub m rd ra rb => Sys2Proof.Machine.execSub m rd ra rb s
  | .mul m rd ra rb => Sys2Proof.Machine.execMul m rd ra rb s
  | .div m rd ra rb => Sys2Proof.Machine.execDiv m rd ra rb s
  | .inv m rd ra => Sys2Proof.Machine.execInv m rd ra s
  | .exp m rd ra rb => Sys2Proof.Machine.execExp m rd ra rb s
  | .red m rd ra => Sys2Proof.Machine.execRed m rd ra s

end Sys2Proof.Machine
end

