-- ==== Sys2Proof/Machine/Window.lean ====
section
/-! DEFINITION. The register window and the host's transactions (spec/20_memory.md R50 to R61). -/

namespace Sys2Proof.Machine

/-- The host address of an offset (spec/00_scope.md R11). -/
def busAddress (off : Offset) : Nat := Config.base + off.toNat

/-- The offset of a host address inside the window; none outside it. The MAU "decodes only the low 12 bits" (R67). -/
def windowOffset (addr : Nat) : Option Offset :=
  if Config.base ≤ addr ∧ addr < Config.base + 0x1000 then some (BitVec.ofNat 12 (addr - Config.base)) else none

/-- The window map at a multiple of 4; none where nothing is mapped (R54, R52). -/
def locate (off : Offset) : Option WindowWord :=
  let o := off.toNat
  if o = 0x000 then some .ctrl
  else if o = 0x004 then some .status
  else if o = 0x008 then some .cmd
  else if o = 0x00C then some .errcode
  else if o = 0x010 then some .errinfo
  else if o < 0x100 then none
  else if o < 0x300 then some (.operand (Fin.ofNat 16 ((o - 0x100) / 0x20)) (Fin.ofNat 8 ((o - 0x100) % 0x20 / 4)))
  else if o < 0x320 then some (.modp (Fin.ofNat 8 ((o - 0x300) / 4)))
  else if o < 0x340 then some (.modn (Fin.ofNat 8 ((o - 0x320) / 4)))
  else none

/-- "Only 32-bit accesses at offsets that are multiples of 4 are legal" (R51). -/
def legalAccess (off : Offset) (size : Nat) : Bool := size == 4 && off.toNat % 4 == 0

/-- What a read of a mapped word returns (R54 to R58, R61). -/
def State.readWindow (s : State) : WindowWord → Word
  | .ctrl => s.ctrlWord
  | .status => s.statusWord
  | .cmd => s.lastcmd
  | .errcode => s.errcode
  | .errinfo => s.errinfo
  | .operand i j => wordOf s.x[i.val] j
  | .modp j => wordOf (BitVec.ofNat 256 Config.fieldPrime) j
  | .modn j => wordOf (BitVec.ofNat 256 Config.curveOrder) j

/-- A write of CTRL: bit 0 = 1 is the soft reset, which discards the rest of the write; otherwise DONEIE and ERRIE take bits 1
and 2 (R55, spec/10_state.md R25, spec/70_reset_and_hazards.md R172). -/
def State.writeCtrl (w : Word) (s : State) : State :=
  if w.getLsbD 0 then s.unitReset else { s with doneie := w.getLsbD 1, errie := w.getLsbD 2 }

/-- A write of CMD: an issue attempt. Accepted whatever its bits when nothing is pending, else CMD_WHILE_BUSY (R57,
spec/60_exceptions.md R143). -/
def State.issue (c : Word) (s : State) : State :=
  match s.pending with
  | none => { s with lastcmd := c, pending := some c }
  | some _ => s.record .cmdWhileBusy c

/-- A write of word j of x[i] at `off`: stored when not busy, dropped with WRITE_WHILE_BUSY when busy (R59,
spec/60_exceptions.md R144). -/
def State.writeOperandWord (off : Offset) (i : Reg) (j : Fin 8) (w : Word) (s : State) : State :=
  if s.busy then s.record .writeWhileBusy (off.setWidth 32)
  else { s with x := s.x.set i.val (setWordOf s.x[i.val] j w) }

/-- `MemRead(off, size)`: a data word or BusError, and no side effect (R50 to R58, R61, R64). -/
def State.busRead (off : Offset) (size : Nat) (s : State) : Reply :=
  if legalAccess off size then
    match locate off with
    | some l => .data (s.readWindow l)
    | none => .busError
  else .busError

/-- The effect and the answer of `MemWrite(off, size, v)` (R50 to R59). A read-only word refuses it (R53). -/
def State.busWrite (off : Offset) (size : Nat) (v : Word) (s : State) : State × Reply :=
  if legalAccess off size then
    match locate off with
    | some .ctrl => (s.writeCtrl v, .ok)
    | some .status => (s.acknowledge v, .ok)
    | some .cmd => (s.issue v, .ok)
    | some (.operand i j) => (s.writeOperandWord off i j v, .ok)
    | some .errcode => (s, .busError)
    | some .errinfo => (s, .busError)
    | some (.modp _) => (s, .busError)
    | some (.modn _) => (s, .busError)
    | none => (s, .busError)
  else (s, .busError)

/-- The host has got an answer. -/
def State.answer (r : Reply) (s : State) : State := { s with replies := r :: s.replies }

/-- A host's transaction, one atomic step (R50, R63, R68). -/
def State.hostTurn (s : State) : Transaction → State
  | .read off size => s.answer (s.busRead off size)
  | .write off size v => (s.busWrite off size v).1.answer (s.busWrite off size v).2

end Sys2Proof.Machine
end

