-- ==== Sys2Proof/Machine/Complete.lean ====
section
/-! DEFINITION. The unit agent's one step: the completion of the pending command (spec/40_modarith.md R101, R103). -/

namespace Sys2Proof.Machine

/-- `complete()` for the pending word c: decode it, raise ILLEGAL_COMMAND if it is Illegal, else run the command (R103). -/
def State.complete (c : Word) (s : State) : Host.Outcome State Fault Refusal :=
  match decode c with
  | .illegal _ => .next (s.completeError .illegalCommand c)
  | .command i => exec i s

/-- The unit agent's step: "enabled whenever PENDING ≠ none" (R101). An idle unit "holds all state" (spec/60_exceptions.md
R157; log 3). -/
def State.unitTurn (s : State) : Host.Outcome State Fault Refusal :=
  match s.pending with
  | none => .next s
  | some c => s.complete c

/-- One turn of the interleaving, the agenda already moved on (spec/20_memory.md R70). -/
def State.takeTurn (s : State) : Turn → Host.Outcome State Fault Refusal
  | .host t => .next (s.hostTurn t)
  | .unit => s.unitTurn
  | .hardReset => .next s.unitReset

/-- A command word accepted for issue and its completion scheduled as the very next turn: what the host's `withFetchWord` sets
(log 14). -/
def State.issueNow (c : Word) (s : State) : State :=
  { s with lastcmd := c, pending := some c, agenda := .unit :: s.agenda }

end Sys2Proof.Machine
end

