-- ==== Sys2Proof/Machine/Step.lean ====
section
/-! DEFINITION. One step of the MAU and its environment (spec/20_memory.md R70): the next turn of the agenda, or, when the
agenda is empty, the completion of what is pending (weak fairness, spec/70_reset_and_hazards.md R185; log 2). -/

namespace Sys2Proof.Machine

/-- One step. -/
def step (s : State) : Host.Outcome State Fault Refusal :=
  match s.agenda with
  | [] => s.unitTurn
  | t :: rest => State.takeTurn { s with agenda := rest } t

/-- The host's question: the word pending, and the unit's turn next, so that the very next step runs it (log 14). -/
def State.withFetchWord (s : State) (nbits w : Nat) : State := s.issueNow (BitVec.ofNat 32 (w % 2 ^ nbits))

end Sys2Proof.Machine
end

