-- ==== Sys2Proof/WellFormed.lean ====
section
/-! DEFINITION. Which raw command fields are legal, from the list of illegal encodings (spec/30_encoding.md R88), and which
bus transactions are, from the access rules (spec/20_memory.md R51 to R53). An `Instr` needs no check of its own: its register
indices are `Fin 16` and INV and RED have no RB. The decoder and the window (Decode.lean, Machine/Window.lean) are written
from R87 and R54 and do not use these checks, so that each can be held against the other. -/

namespace Sys2Proof

namespace C3R

/-- Not "OPC = 0x0" and not "OPC in 0x8–0xF" (R88). -/
def opcodeLegal (f : C3R) : Bool := 1 ≤ f.opc.toNat && f.opc.toNat ≤ 7

/-- No "1 bit in RSV0 [7:5] or RSV1 [31:20]" (R88). -/
def reservedZero (f : C3R) : Bool := f.rsv0 == 0#3 && f.rsv1 == 0#12

/-- Not "RB ≠ 0 for INV or RED" (R88). -/
def unusedZero (f : C3R) : Bool := !(f.opc == 5#4 || f.opc == 7#4) || f.rb == 0#4

/-- None of R88's illegal encodings. -/
def wellFormed (f : C3R) : Bool := f.opcodeLegal && f.reservedZero && f.unusedZero

end C3R

namespace Offset

/-- "offsets that are multiples of 4" (R51). -/
def aligned (off : Offset) : Bool := off.toNat % 4 == 0

/-- Not one of the unmapped offsets "0x014–0x0FF and 0x340–0xFFF" (R52). -/
def mapped (off : Offset) : Bool :=
  !(0x014 ≤ off.toNat && off.toNat ≤ 0x0FF) && !(0x340 ≤ off.toNat)

/-- One of R53's read-only offsets: ERRCODE, ERRINFO, MODP, MODN. -/
def readOnly (off : Offset) : Bool :=
  off.toNat == 0x00C || off.toNat == 0x010 || (0x300 ≤ off.toNat && off.toNat ≤ 0x33C)

end Offset

/-- A transaction the MAU does not refuse: R51, R52, and for a write R53. -/
def Transaction.wellFormed : Transaction → Bool
  | .read off size => size == 4 && Offset.aligned off && Offset.mapped off
  | .write off size _ => size == 4 && Offset.aligned off && Offset.mapped off && !Offset.readOnly off

end Sys2Proof
end

