-- ==== Sys2Proof/Safety.lean ====
section
/-! DEFINITION. What the claims about the MAU are stated in: a step that goes on, the consistency of the
error record and of the pending command, and the discipline of a host program (spec/70_reset_and_hazards.md section 3). -/

namespace Sys2Proof

/-- The destination register of a command (spec/30_encoding.md R85). -/
def Instr.dest : Instr → Reg
  | .add _ rd _ _ => rd
  | .sub _ rd _ _ => rd
  | .mul _ rd _ _ => rd
  | .div _ rd _ _ => rd
  | .inv _ rd _ => rd
  | .exp _ rd _ _ => rd
  | .red _ rd _ => rd

/-- The modulus a command names (R82). -/
def Instr.modulus : Instr → Modulus
  | .add m _ _ _ => m
  | .sub m _ _ _ => m
  | .mul m _ _ _ => m
  | .div m _ _ _ => m
  | .inv m _ _ => m
  | .exp m _ _ _ => m
  | .red m _ _ => m

/-- A command that inverts: INV or DIV, the raisers of INVERSION_OF_ZERO (spec/60_exceptions.md R141). -/
def Instr.inverts : Instr → Bool
  | .div _ _ _ _ => true
  | .inv _ _ _ => true
  | .add _ _ _ _ => false
  | .sub _ _ _ _ => false
  | .mul _ _ _ _ => false
  | .exp _ _ _ _ => false
  | .red _ _ _ => false

/-- A command with an operand that must be reduced: all but RED, the raisers of OPERAND_NOT_REDUCED (R141). -/
def Instr.checks : Instr → Bool
  | .red _ _ _ => false
  | .add _ _ _ _ => true
  | .sub _ _ _ _ => true
  | .mul _ _ _ _ => true
  | .div _ _ _ _ => true
  | .inv _ _ _ => true
  | .exp _ _ _ _ => true

namespace Machine

/-- A step that goes on. -/
def State.goesOn (s : State) : Prop := ∃ t, step s = .next t

/-- What ERRINFO may hold beside each ERRCODE (R141, spec/10_state.md R34, R35): with ERR = 0 both are 0; with ERR = 1 the code is one
of the five, and the information word is one that can raise it. -/
def State.RecordConsistent (s : State) : Prop :=
  (s.err = false → s.errcode = 0#32 ∧ s.errinfo = 0#32) ∧
  (s.err = true →
    (s.errcode = 1#32 ∧ ∃ why, decode s.errinfo = .illegal why) ∨
    (s.errcode = 2#32 ∧ ∃ i, decode s.errinfo = .command i ∧ i.checks = true) ∨
    (s.errcode = 3#32 ∧ ∃ i, decode s.errinfo = .command i ∧ i.inverts = true) ∨
    s.errcode = 4#32 ∨
    (s.errcode = 5#32 ∧ 0x100 ≤ s.errinfo.toNat ∧ s.errinfo.toNat ≤ 0x2FC ∧ s.errinfo.toNat % 4 = 0))

/-- "It holds the last command word the MAU accepted for issue" (R33), so the pending word is LASTCMD's. -/
def State.PendingIsLast (s : State) : Prop := ∀ c, s.pending = some c → s.lastcmd = c

/-- The flags are those of one result (R104): the result 0 is not above (m − 1)/2, and neither is what RED leaves of an operand at
or above its modulus, since it is below 2^256 − m (R113, spec/00_scope.md R10). -/
def State.FlagsConsistent (s : State) : Prop := ¬(s.z = true ∧ s.hi = true) ∧ ¬(s.ge = true ∧ s.hi = true)

/-- The invariant of the MAU: it holds at reset and every step keeps it. -/
structure State.Inv (s : State) : Prop where
  record : s.RecordConsistent
  pendingIsLast : s.PendingIsLast
  flags : s.FlagsConsistent

/-- A host's transaction that keeps the hazard rules: it writes an operand or CMD only while BUSY = 0
(spec/70_reset_and_hazards.md R180, R181). -/
def State.allows (s : State) : Transaction → Bool
  | .read _ _ => true
  | .write off _ _ => !s.busy || !(off.toNat == 0x008 || (0x100 ≤ off.toNat && off.toNat < 0x300))

end Machine

/-- A transaction that resets the unit: a legal write of CTRL with bit 0 = 1 (R172). -/
def Transaction.softResets : Transaction → Bool
  | .write off size v => off.toNat == 0x000 && size == 4 && v.getLsbD 0
  | .read _ _ => false

/-- A transaction that clears ERR: a legal write of STATUS with bit 2 = 1 (spec/10_state.md R32). -/
def Transaction.clearsErr : Transaction → Bool
  | .write off size v => off.toNat == 0x004 && size == 4 && v.getLsbD 2
  | .read _ _ => false

end Sys2Proof
end

