-- ==== Sys2Proof/Certificates/Slice0/Obligations.lean ====
section
/-! DEFINITION. The statements about the MAU, for the provers. Each docstring names the rules of spec/ it formalises. -/

open Sys2Proof Sys2Proof.Machine

namespace Sys2Proof.Claims

/-- The state after a completion with no error, field by field (spec/40_modarith.md R104, R105): x[RD] <- r, the three flags,
PENDING <- none, DONE <- 1, "any other register or field keeps its value". -/
def completed (m : Nat) (rd : Reg) (r : Nat) (ge : Bool) (s : State) : State :=
  { s with
    x := s.x.set rd.val (BitVec.ofNat 256 r)
    z := decide (r = 0)
    ge := ge
    hi := decide (r > (m - 1) / 2)
    pending := none
    done := true }

/-- The state after an error of the given code is raised (spec/60_exceptions.md R145, R146). -/
def recorded (code info : Word) (s : State) : State :=
  if s.err = false then { s with err := true, errcode := code, errinfo := info } else { s with eovf := true }

/-- The state after a completion that raises an error (R106): the record, PENDING <- none and DONE <- 1, and nothing else. -/
def errored (code info : Word) (s : State) : State := { recorded code info s with pending := none, done := true }

/-- The state in which an agenda has moved on by one turn. -/
def movedOn (rest : List Turn) (s : State) : State := { s with agenda := rest }

/-- The state after a reset (spec/10_state.md R41), what the host has got and what comes next being none of the MAU's. -/
def afterReset (s : State) : State :=
  { x := Vector.replicate 16 0#256, doneie := false, errie := false, done := false, err := false, eovf := false, z := false,
    ge := false, hi := false, lastcmd := 0#32, errcode := 0#32, errinfo := 0#32, pending := none, agenda := s.agenda,
    replies := s.replies }

/-- No check of spec/40_modarith.md R103 fails: the operands the command's rule wants reduced are, and it does not invert 0
(R107 to R113). -/
def producesResult (s : State) : Instr → Prop
  | .add m _ ra rb => s.x[ra.val].toNat < modulus m ∧ s.x[rb.val].toNat < modulus m
  | .sub m _ ra rb => s.x[ra.val].toNat < modulus m ∧ s.x[rb.val].toNat < modulus m
  | .mul m _ ra rb => s.x[ra.val].toNat < modulus m ∧ s.x[rb.val].toNat < modulus m
  | .div m _ ra rb => s.x[ra.val].toNat < modulus m ∧ s.x[rb.val].toNat < modulus m ∧ s.x[rb.val].toNat ≠ 0
  | .inv m _ ra => s.x[ra.val].toNat < modulus m ∧ s.x[ra.val].toNat ≠ 0
  | .exp m _ ra _ => s.x[ra.val].toNat < modulus m
  | .red _ _ _ => True

/-- The value of a command that produces a result, in plain powers and remainders (R107 to R113, spec/00_scope.md R17, R18). -/
def resultOf (s : State) : Instr → Nat
  | .add m _ ra rb => (s.x[ra.val].toNat + s.x[rb.val].toNat) % modulus m
  | .sub m _ ra rb => (s.x[ra.val].toNat + modulus m - s.x[rb.val].toNat) % modulus m
  | .mul m _ ra rb => s.x[ra.val].toNat * s.x[rb.val].toNat % modulus m
  | .div m _ ra rb => s.x[ra.val].toNat * s.x[rb.val].toNat ^ (modulus m - 2) % modulus m
  | .inv m _ ra => s.x[ra.val].toNat ^ (modulus m - 2) % modulus m
  | .exp m _ ra rb => s.x[ra.val].toNat ^ s.x[rb.val].toNat % modulus m
  | .red m _ ra => s.x[ra.val].toNat % modulus m

/-- The GE of a command that produces a result: x[RA] ≥ m for RED, 0 for all others (R104). -/
def geOf (s : State) : Instr → Bool
  | .red m _ ra => decide (s.x[ra.val].toNat ≥ modulus m)
  | .add _ _ _ _ | .sub _ _ _ _ | .mul _ _ _ _ | .div _ _ _ _ | .inv _ _ _ | .exp _ _ _ _ => false

/-- Two commands of one modulus, each on its own state, end alike: with one result and one GE written to each one's destination, or
with one and the same error, each naming its own word. -/
def endAlike (m : Nat) (i : Instr) (rd : Reg) (s : State) (i' : Instr) (rd' : Reg) (s' : State) : Prop :=
  (∃ r ge, r < m ∧ exec i s = .next (completed m rd r ge s) ∧ exec i' s' = .next (completed m rd' r ge s')) ∨
    ∃ code, exec i s = .next (errored code (encode i) s) ∧ exec i' s' = .next (errored code (encode i') s')

end Sys2Proof.Claims

open Sys2Proof.Claims

/-! ## Encoding -/

/-- Command words written out from R81 and R86 decode to the commands they stand for (the legal rows of V-DEC, one for every
opcode). A sanity statement. -/
def Obligations.SampleWordsDecode : Prop :=
  decode 0x00000001#32 = .command (.add .p 0 0 0) ∧ decode 0x00000011#32 = .command (.add .n 0 0 0) ∧
  decode 0x00060702#32 = .command (.sub .p 7 0 6) ∧ decode 0x00021303#32 = .command (.mul .p 3 1 2) ∧
  decode 0x00034514#32 = .command (.div .n 5 4 3) ∧ decode 0x00004415#32 = .command (.inv .n 4 4) ∧
  decode 0x000FFF16#32 = .command (.exp .n 15 15 15) ∧ decode 0x00001117#32 = .command (.red .n 1 1)

/-- Decoding an encoded command gives it back, for every command, modulus and register. -/
def Obligations.DecodeOfEncode : Prop := ∀ i : Instr, decode (encode i) = .command i

/-- A word that decodes to a command is that command's encoding: each command has exactly one word. -/
def Obligations.EncodeOfDecode : Prop := ∀ (c : Word) (i : Instr), decode c = .command i → encode i = c

/-- R88: the Illegal words are exactly those with OPC = 0, OPC in 8..15, a 1 bit in [7:5] or [31:20], or RB ≠ 0 for INV (5) or
RED (7), the fields taken from the word as a number. -/
def Obligations.IllegalWordsAreExactlyListed : Prop :=
  ∀ c : Word, (∃ why, decode c = .illegal why) ↔
    (c.toNat % 16 = 0 ∨ 8 ≤ c.toNat % 16 ∨ c.toNat / 32 % 8 ≠ 0 ∨ c.toNat / 2 ^ 20 ≠ 0 ∨
      ((c.toNat % 16 = 5 ∨ c.toNat % 16 = 7) ∧ c.toNat / 2 ^ 16 % 16 ≠ 0))

/-- R81 "An assembled word is c = OPC | (M << 4) | (RD << 8) | (RA << 12) | (RB << 16)", with R86's opcodes and R82's M. -/
def Obligations.AssembledWordIsOrOfFields : Prop :=
  ∀ (rd ra rb : Reg),
    ∀ mb ∈ [(Modulus.p, 0#32), (Modulus.n, 1#32)],
      let regs3 := (mb.2 <<< 4) ||| (BitVec.ofNat 32 rd.val <<< 8) ||| (BitVec.ofNat 32 ra.val <<< 12) |||
        (BitVec.ofNat 32 rb.val <<< 16)
      let regs2 := (mb.2 <<< 4) ||| (BitVec.ofNat 32 rd.val <<< 8) ||| (BitVec.ofNat 32 ra.val <<< 12)
      encode (.add mb.1 rd ra rb) = 1#32 ||| regs3 ∧ encode (.sub mb.1 rd ra rb) = 2#32 ||| regs3 ∧
      encode (.mul mb.1 rd ra rb) = 3#32 ||| regs3 ∧ encode (.div mb.1 rd ra rb) = 4#32 ||| regs3 ∧
      encode (.inv mb.1 rd ra) = 5#32 ||| regs2 ∧ encode (.exp mb.1 rd ra rb) = 6#32 ||| regs3 ∧
      encode (.red mb.1 rd ra) = 7#32 ||| regs2

/-- R90: each pseudo-instruction assembles to one word, which decodes to its expansion. -/
def Obligations.PseudoAssemblesToItsExpansion : Prop :=
  ∀ (m : Modulus) (vd va vb : Reg),
    decode (AsmLine.pseudo (.sqr m vd va)).assemble = .command (.mul m vd va va) ∧
    decode (AsmLine.pseudo (.dbl m vd va)).assemble = .command (.add m vd va va) ∧
    decode (AsmLine.pseudo (.pow m vd va vb)).assemble = .command (.exp m vd va vb) ∧
    decode (AsmLine.pseudo (.mov m vd va)).assemble = .command (.red m vd va) ∧
    decode (AsmLine.pseudo (.chk m va)).assemble = .command (.red m va va) ∧
    decode (AsmLine.pseudo (.neg m vd va vb)).assemble = .command (.sub m vd vb va)

/-! ## The moduli -/

/-- R9, R10, R15: MOD(M) is p = 2^256 − 2^32 − 977 for M = 0 and n for M = 1, both are prime, and R10's derived values hold.
The spec marks the digits and the primality as from general knowledge (PRESUMED, log 16). -/
def Obligations.ModuliAreTheTwoPrimes : Prop :=
  modulus .p = 2 ^ 256 - 2 ^ 32 - 977 ∧
  modulus .p = 0xFFFFFFFFFFFFFFFFFFFFFFFFFFFFFFFFFFFFFFFFFFFFFFFFFFFFFFFEFFFFFC2F ∧
  modulus .n = 0xFFFFFFFFFFFFFFFFFFFFFFFFFFFFFFFEBAAEDCE6AF48A03BBFD25E8CD0364141 ∧
  Nat.Prime (modulus .p) ∧ Nat.Prime (modulus .n) ∧
  modulus .n < modulus .p ∧
  modulus .p - modulus .n = 0x14551231950B75FC4402DA1722FC9BAEE ∧
  2 ^ 256 - modulus .p = 0x1000003D1 ∧
  2 ^ 256 - modulus .n = 0x14551231950B75FC4402DA1732FC9BEBF ∧
  (modulus .p - 1) / 2 = 0x7FFFFFFFFFFFFFFFFFFFFFFFFFFFFFFFFFFFFFFFFFFFFFFFFFFFFFFF7FFFFE17 ∧
  (modulus .n - 1) / 2 = 0x7FFFFFFFFFFFFFFFFFFFFFFFFFFFFFFF5D576E7357A4501DDFE92F46681B20A0

/-! ## Results: what each command leaves, whole state -/

/-- R107: with both operands reduced, ADD completes with x[RD] <- (x[RA] + x[RB]) mod m, Z and HI of the result, GE = 0, and every
other field as it was. -/
def Obligations.AddCompletesWithSum : Prop :=
  ∀ (m : Modulus) (rd ra rb : Reg) (s : State),
    s.x[ra.val].toNat < modulus m → s.x[rb.val].toNat < modulus m →
    exec (.add m rd ra rb) s =
      .next (completed (modulus m) rd ((s.x[ra.val].toNat + s.x[rb.val].toNat) % modulus m) false s)

/-- R108: with both operands reduced, SUB completes with a − b when a ≥ b and a − b + m when a < b, Z and HI of the result, GE = 0,
and every other field as it was. -/
def Obligations.SubCompletesWithDifference : Prop :=
  ∀ (m : Modulus) (rd ra rb : Reg) (s : State),
    s.x[ra.val].toNat < modulus m → s.x[rb.val].toNat < modulus m →
    exec (.sub m rd ra rb) s =
      .next (completed (modulus m) rd
        (if s.x[rb.val].toNat ≤ s.x[ra.val].toNat then s.x[ra.val].toNat - s.x[rb.val].toNat
          else s.x[ra.val].toNat + modulus m - s.x[rb.val].toNat) false s)

/-- R109: with both operands reduced, MUL completes with the full product reduced once, Z and HI of the result, GE = 0, and every
other field as it was. -/
def Obligations.MulCompletesWithProduct : Prop :=
  ∀ (m : Modulus) (rd ra rb : Reg) (s : State),
    s.x[ra.val].toNat < modulus m → s.x[rb.val].toNat < modulus m →
    exec (.mul m rd ra rb) s =
      .next (completed (modulus m) rd (s.x[ra.val].toNat * s.x[rb.val].toNat % modulus m) false s)

/-- R110: with both operands reduced and b ≠ 0, DIV completes with "the unique residue with (y · b) mod m = a", Z and HI of the
result, GE = 0, and every other field as it was. -/
def Obligations.DivCompletesWithQuotient : Prop :=
  ∀ (m : Modulus) (rd ra rb : Reg) (s : State),
    s.x[ra.val].toNat < modulus m → s.x[rb.val].toNat < modulus m → s.x[rb.val].toNat ≠ 0 →
    ∃ y, y < modulus m ∧ y * s.x[rb.val].toNat % modulus m = s.x[ra.val].toNat ∧
      (∀ y', y' < modulus m → y' * s.x[rb.val].toNat % modulus m = s.x[ra.val].toNat → y' = y) ∧
      exec (.div m rd ra rb) s = .next (completed (modulus m) rd y false s)

/-- R111, R17: with a reduced operand a ≠ 0, INV completes with "the unique y in [1, m − 1] with (a · y) mod m = 1", so Z = 0, HI of
the result, GE = 0, and every other field as it was. -/
def Obligations.InvCompletesWithInverse : Prop :=
  ∀ (m : Modulus) (rd ra : Reg) (s : State),
    s.x[ra.val].toNat < modulus m → s.x[ra.val].toNat ≠ 0 →
    ∃ y, 1 ≤ y ∧ y ≤ modulus m - 1 ∧ s.x[ra.val].toNat * y % modulus m = 1 ∧
      (∀ y', 1 ≤ y' → y' ≤ modulus m - 1 → s.x[ra.val].toNat * y' % modulus m = 1 → y' = y) ∧
      exec (.inv m rd ra) s = .next (completed (modulus m) rd y false s) ∧ (completed (modulus m) rd y false s).z = false

/-- R112: with a reduced base, EXP completes with pow(a, e) mod m for every exponent a register holds, Z and HI of the result,
GE = 0, and every other field as it was. -/
def Obligations.ExpCompletesWithPower : Prop :=
  ∀ (m : Modulus) (rd ra rb : Reg) (s : State),
    s.x[ra.val].toNat < modulus m →
    exec (.exp m rd ra rb) s =
      .next (completed (modulus m) rd (s.x[ra.val].toNat ^ s.x[rb.val].toNat % modulus m) false s)

/-- R113: for every operand, RED completes with a when a < m and, by the single subtraction that "always suffices", a − m
otherwise; GE = (a ≥ m), Z and HI of the result, and every other field as it was. -/
def Obligations.RedCompletesWithResidue : Prop :=
  ∀ (m : Modulus) (rd ra : Reg) (s : State),
    exec (.red m rd ra) s =
      .next (completed (modulus m) rd
        (if s.x[ra.val].toNat < modulus m then s.x[ra.val].toNat else s.x[ra.val].toNat - modulus m)
        (decide (s.x[ra.val].toNat ≥ modulus m)) s)

/-! ## Errors of a command -/

/-- R103, R106, R141: a source that must be reduced and is not makes the command complete with OPERAND_NOT_REDUCED (code 2) and
its own command word: RA of ADD, SUB, MUL, DIV, INV, EXP, and RB of ADD, SUB, MUL, DIV whatever RA holds. In DIV it comes before
the test for 0 (R147). -/
def Obligations.UnreducedOperandRaises : Prop :=
  ∀ (m : Modulus) (rd ra rb : Reg) (s : State),
    (modulus m ≤ s.x[ra.val].toNat ∨ modulus m ≤ s.x[rb.val].toNat →
      (∀ op ∈ [Instr.add, Instr.sub, Instr.mul, Instr.div],
        exec (op m rd ra rb) s = .next (errored 2#32 (encode (op m rd ra rb)) s))) ∧
    (modulus m ≤ s.x[ra.val].toNat →
      exec (.inv m rd ra) s = .next (errored 2#32 (encode (.inv m rd ra)) s) ∧
      exec (.exp m rd ra rb) s = .next (errored 2#32 (encode (.exp m rd ra rb)) s))

/-- R110, R111, R141: DIV by 0, its operands reduced and whatever the dividend, and INV of 0 complete with INVERSION_OF_ZERO
(code 3) and their own command word. -/
def Obligations.InversionOfZeroRaises : Prop :=
  ∀ (m : Modulus) (rd ra rb : Reg) (s : State),
    (s.x[ra.val].toNat < modulus m → s.x[rb.val].toNat = 0 →
      exec (.div m rd ra rb) s = .next (errored 3#32 (encode (.div m rd ra rb)) s)) ∧
    (s.x[ra.val].toNat = 0 → exec (.inv m rd ra) s = .next (errored 3#32 (encode (.inv m rd ra)) s))

/-- R142, R106: a pending word that decodes to Illegal is accepted, and completes with ILLEGAL_COMMAND (code 1) and the word, at the
unit's turn. -/
def Obligations.IllegalWordRaisesAtCompletion : Prop :=
  ∀ (s : State) (c : Word) (why : IllegalReason) (rest : List Turn),
    s.pending = some c → decode c = .illegal why →
    (s.agenda = [] → step s = .next (errored 1#32 c s)) ∧
    (s.agenda = .unit :: rest → step s = .next (errored 1#32 c (movedOn rest s)))

/-- R145, R146: what recording an error does: the first since ERR was last cleared sets ERR and keeps its code and information;
a later one sets only EOVF; nothing else changes. -/
def Obligations.RecordKeepsFirstError : Prop :=
  ∀ (e : ErrorCode) (info : Word) (s : State),
    (s.err = false → s.record e info = { s with err := true, errcode := (errorCode e).setWidth 32, errinfo := info }) ∧
    (s.err = true → s.record e info = { s with eovf := true })

/-! ## Whole-machine rules about commands -/

/-- R100, R148: whatever command runs, in whatever state, it completes, and either its destination holds a residue of its modulus
and no error is recorded by it, or no operand register and no flag changes and an error is recorded. -/
def Obligations.CommandWritesResidueOrNothing : Prop :=
  ∀ (i : Instr) (s : State), ∃ t, exec i s = .next t ∧
    ((∃ r, r < modulus i.modulus ∧ t.x = s.x.set i.dest.val (BitVec.ofNat 256 r) ∧ t.err = s.err ∧ t.eovf = s.eovf ∧
        t.errcode = s.errcode ∧ t.errinfo = s.errinfo) ∨
      (t.x = s.x ∧ t.z = s.z ∧ t.ge = s.ge ∧ t.hi = s.hi ∧ t.err = true ∧ (s.err = true → t.eovf = true)))

/-- The frame of every command, for each of ADD, SUB, MUL, DIV, INV, EXP and RED, on every path (R105, R106): it changes no operand
register but its destination, and neither CTRL nor LASTCMD; it ends with nothing pending and DONE set; the record changes only by an
error; and every word of the window reads as before but for the destination's eight, STATUS, and the record's two. -/
def Obligations.CommandFrame : Prop :=
  ∀ (i : Instr) (s t : State), exec i s = .next t →
    (∀ k : Reg, k ≠ i.dest → t.x[k.val] = s.x[k.val]) ∧
    t.doneie = s.doneie ∧ t.errie = s.errie ∧ t.lastcmd = s.lastcmd ∧ t.agenda = s.agenda ∧ t.replies = s.replies ∧
    t.pending = none ∧ t.done = true ∧
    (s.err = true → t.err = true ∧ t.errcode = s.errcode ∧ t.errinfo = s.errinfo) ∧
    (t.err = false → s.err = false ∧ t.eovf = s.eovf ∧ t.errcode = s.errcode ∧ t.errinfo = s.errinfo) ∧
    (∀ off l, locate off = some l → l ≠ .status → l ≠ .errcode → l ≠ .errinfo → (∀ j, l ≠ .operand i.dest j) →
      t.busRead off 4 = s.busRead off 4)

/-- R115: a result is a function of the opcode, M and the operand values alone: not of which registers are named, of the other
registers, of what was recorded or enabled before, or of what comes next. Two runs of one opcode and modulus on equal operand
values, from any two states, end alike. -/
def Obligations.ResultDependsOnOperandsOnly : Prop :=
  ∀ (m : Modulus) (rd ra rb rd' ra' rb' : Reg) (s s' : State), s.x[ra.val] = s'.x[ra'.val] →
    (s.x[rb.val] = s'.x[rb'.val] →
      ∀ op ∈ [Instr.add, Instr.sub, Instr.mul, Instr.div, Instr.exp],
        endAlike (modulus m) (op m rd ra rb) rd s (op m rd' ra' rb') rd' s') ∧
    (∀ op ∈ [Instr.inv, Instr.red], endAlike (modulus m) (op m rd ra) rd s (op m rd' ra') rd' s')

/-- R116: division is multiplication by the inverse, run as commands: INV then MUL through a spare register leaves in RD what DIV
leaves there. -/
def Obligations.DivAgreesWithInvThenMul : Prop :=
  ∀ (m : Modulus) (rd rt ra rb : Reg) (s : State),
    s.x[ra.val].toNat < modulus m → s.x[rb.val].toNat < modulus m → s.x[rb.val].toNat ≠ 0 → rt ≠ ra →
    ∃ t u v, exec (.inv m rt rb) s = .next t ∧ exec (.mul m rd ra rt) t = .next u ∧ exec (.div m rd ra rb) s = .next v ∧
      u.x[rd.val] = v.x[rd.val] ∧ u.z = v.z ∧ u.ge = v.ge ∧ u.hi = v.hi

/-- R116: the identities of the values, for reduced operands and both moduli ("derived from rules R107–R113"). -/
def Obligations.ValueIdentities : Prop :=
  ∀ (m : Modulus) (a b c e1 e2 : Nat), a < modulus m → b < modulus m → c < modulus m →
    valueAdd a b (modulus m) = valueAdd b a (modulus m) ∧
    valueAdd (valueAdd a b (modulus m)) c (modulus m) = valueAdd a (valueAdd b c (modulus m)) (modulus m) ∧
    valueMul a b (modulus m) = valueMul b a (modulus m) ∧
    valueMul (valueMul a b (modulus m)) c (modulus m) = valueMul a (valueMul b c (modulus m)) (modulus m) ∧
    valueMul a (valueAdd b c (modulus m)) (modulus m) =
      valueAdd (valueMul a b (modulus m)) (valueMul a c (modulus m)) (modulus m) ∧
    valueSub a b (modulus m) = valueAdd a (valueSub 0 b (modulus m)) (modulus m) ∧
    (b ≠ 0 → valueDiv a b (modulus m) = valueMul a (valueInv b (modulus m)) (modulus m)) ∧
    (a ≠ 0 → valueInv a (modulus m) = valueExp a (modulus m - 2) (modulus m)) ∧
    (e1 + e2 < 2 ^ 256 → valueExp a (e1 + e2) (modulus m) =
      valueMul (valueExp a e1 (modulus m)) (valueExp a e2 (modulus m)) (modulus m)) ∧
    valueRed a (modulus m) = a

/-! ## The client's tests on the flags -/

/-- R117: after `red.m vd, va`, GE = 0 ∧ Z = 0 holds exactly when 1 ≤ x[va] ≤ m − 1 ("derived: from rule R113
and rule R104"). -/
def Obligations.RedFlagsTellRange : Prop :=
  ∀ (m : Modulus) (rd ra : Reg) (s : State), ∃ t, exec (.red m rd ra) s = .next t ∧
    ((t.ge = false ∧ t.z = false) ↔ (1 ≤ s.x[ra.val].toNat ∧ s.x[ra.val].toNat ≤ modulus m - 1))

/-- R118: every command modulo n that produces a result, whatever was recorded before, completes with HI = 1 exactly when the result
is above n/2, and then `sub.n` of a register that holds 0 and the result leaves n − result, with HI = 0 ("derived: from rule R104
and rule R108"). -/
def Obligations.HiTellsLowS : Prop :=
  ∀ (i : Instr) (s : State) (vz : Reg), i.modulus = .n → producesResult s i →
    ∃ t, exec i s = .next t ∧
      (t.hi = true ↔ 2 * t.x[i.dest.val].toNat > modulus .n) ∧
      (t.hi = true → t.x[vz.val].toNat = 0 →
        ∃ u, exec (.sub .n i.dest vz i.dest) t = .next u ∧
          u.x[i.dest.val].toNat = modulus .n - t.x[i.dest.val].toNat ∧ u.hi = false)

/-- R119: after `red.n` on IL, GE = 1 exactly when IL ≥ n; after `add.n` of the reduced IL and a reduced parent, Z = 1 exactly when
the sum is 0 mod n ("derived: from rule R113 and rule R107"). -/
def Obligations.ChildKeyTests : Prop :=
  ∀ (vd va vp vc : Reg) (s : State), vd ≠ vp → s.x[vp.val].toNat < modulus .n →
    ∃ t u, exec (.red .n vd va) s = .next t ∧ (t.ge = true ↔ modulus .n ≤ s.x[va.val].toNat) ∧
      exec (.add .n vc vd vp) t = .next u ∧
      (u.z = true ↔ (s.x[va.val].toNat + s.x[vp.val].toNat) % modulus .n = 0)

/-- R121: on reduced coordinates, `add.p` sets Z exactly when the one is the negation of the other, and `sub.p` exactly when they are
equal ("derived: from rule R107 and rule R108"). -/
def Obligations.PointTests : Prop :=
  ∀ (vt va vb : Reg) (s : State), s.x[va.val].toNat < modulus .p → s.x[vb.val].toNat < modulus .p →
    ∃ t u, exec (.add .p vt va vb) s = .next t ∧ exec (.sub .p vt va vb) s = .next u ∧
      (t.z = true ↔ s.x[va.val].toNat = (modulus .p - s.x[vb.val].toNat) % modulus .p) ∧
      (u.z = true ↔ s.x[va.val].toNat = s.x[vb.val].toNat)

/-! ## Steps -/

/-- R101, R103: at the unit's turn, or when no turn is left (the model's weak fairness, log 2), a pending word that decodes to a
command is run by that command's meaning, on the state whose agenda has moved on. -/
def Obligations.StepRunsDecodedCommand : Prop :=
  ∀ (s : State) (c : Word) (i : Instr) (rest : List Turn), s.pending = some c → decode c = .command i →
    (s.agenda = [] → step s = exec i s) ∧ (s.agenda = .unit :: rest → step s = exec i (movedOn rest s))

/-- R70, R170: a host's turn performs its transaction and a hard reset takes its one step, and the agenda has moved on. -/
def Obligations.StepPerformsTurn : Prop :=
  ∀ (s : State) (t : Transaction) (rest : List Turn),
    (s.agenda = .host t :: rest → step s = .next ((movedOn rest s).hostTurn t)) ∧
    (s.agenda = .hardReset :: rest → step s = .next (afterReset (movedOn rest s)))

/-- R157: "an idle unit holds all state indefinitely". The steps of the model in which nothing happens are its own (log 3). -/
def Obligations.IdleUnitHoldsState : Prop :=
  ∀ (s : State) (rest : List Turn), s.pending = none →
    (s.agenda = [] → step s = .next s) ∧ (s.agenda = .unit :: rest → step s = .next (movedOn rest s))

/-- R140: no step of the machine stops: whatever the state, there is a next one. -/
def Obligations.EveryStepGoesOn : Prop := ∀ s : State, s.goesOn

/-- R185: a pending command is eventually completed: from every state, once the turns of the agenda have been taken and one step
more, nothing is pending. It rests on the model's fairness (log 2). -/
def Obligations.RunBecomesIdle : Prop :=
  ∀ s : State, ∃ t, Host.Core.run core (s.agenda.length + 1) s = .next t ∧ t.pending = none ∧ t.agenda = []

/-- R37, R39, R74: while a command is pending, a host's transaction either resets the unit or leaves the pending word, LASTCMD, every
operand register and the flags as they are: operands read at completion are those at issue. -/
def Obligations.OperandsFixedWhilePending : Prop :=
  ∀ (s : State) (c : Word) (t : Transaction), s.pending = some c →
    (t.softResets = true ∧ s.hostTurn t = { afterReset s with replies := .ok :: s.replies }) ∨
    ((s.hostTurn t).pending = some c ∧ (s.hostTurn t).lastcmd = s.lastcmd ∧ (s.hostTurn t).x = s.x ∧
      (s.hostTurn t).z = s.z ∧ (s.hostTurn t).ge = s.ge ∧ (s.hostTurn t).hi = s.hi)

/-! ## The register window -/

/-- R51, R52, R53, R152: a transaction is answered BusError exactly when its size is not 4, its offset is misaligned or unmapped,
or it writes a read-only offset; and then nothing of the MAU changes. -/
def Obligations.BusErrorExactlyWhenIllegal : Prop :=
  ∀ (s : State) (t : Transaction),
    ((s.hostTurn t).replies = .busError :: s.replies ↔ t.wellFormed = false) ∧
    (t.wellFormed = false → s.hostTurn t = { s with replies := .busError :: s.replies })

/-- R64: "Every legal read may be repeated": two reads in a row give one and the same answer twice, and change nothing but the
host's own answers; so of any read, legal or not. -/
def Obligations.ReadsMayBeRepeated : Prop :=
  ∀ (s : State) (off : Offset) (size : Nat), ∃ r,
    (s.hostTurn (.read off size)).hostTurn (.read off size) = { s with replies := r :: r :: s.replies } ∧
    (s.hostTurn (.read off size)).replies = r :: s.replies

/-- R55, R25: a write of CTRL with bit 0 = 0 sets DONEIE and ERRIE from bits 1 and 2 and nothing else, a write with bit 0 = 1 is the
soft reset, both are answered Ok whatever is pending, and a read gives the two bits and zeros. -/
def Obligations.CtrlReadAndWrite : Prop :=
  ∀ (s : State) (w : Word),
    (w.toNat % 2 = 0 → s.busWrite 0x000#12 4 w =
      ({ s with doneie := decide (w.toNat / 2 % 2 = 1), errie := decide (w.toNat / 4 % 2 = 1) }, .ok)) ∧
    (w.toNat % 2 = 1 → s.busWrite 0x000#12 4 w = (afterReset s, .ok)) ∧
    s.busRead 0x000#12 4 = .data (BitVec.ofNat 32 (2 * s.doneie.toNat + 4 * s.errie.toNat))

/-- R56, R26, R27: a read of STATUS gives BUSY at bit 0 (1 exactly when a command is pending), DONE 1, ERR 2, EOVF 3, Z 8, GE 9,
HI 10, and zeros elsewhere, and it clears nothing: only the host has got an answer. -/
def Obligations.StatusReadLayout : Prop :=
  ∀ s : State, s.hostTurn (.read 0x004#12 4) =
    { s with replies := .data (BitVec.ofNat 32
        ((if s.pending = none then 0 else 1) + 2 * s.done.toNat + 4 * s.err.toNat + 8 * s.eovf.toNat +
          256 * s.z.toNat + 512 * s.ge.toNat + 1024 * s.hi.toNat)) :: s.replies }

/-- R32: a write of STATUS clears DONE by bit 1, ERR with ERRCODE and ERRINFO by bit 2, EOVF by bit 3, and nothing else, whatever is
pending. -/
def Obligations.StatusWriteOneToClear : Prop :=
  ∀ (s : State) (w : Word), ∃ t, s.busWrite 0x004#12 4 w = (t, .ok) ∧
    t = { s with done := t.done, err := t.err, eovf := t.eovf, errcode := t.errcode, errinfo := t.errinfo } ∧
    t.done = (if w.toNat / 2 % 2 = 1 then false else s.done) ∧
    t.err = (if w.toNat / 4 % 2 = 1 then false else s.err) ∧
    t.errcode = (if w.toNat / 4 % 2 = 1 then 0#32 else s.errcode) ∧
    t.errinfo = (if w.toNat / 4 % 2 = 1 then 0#32 else s.errinfo) ∧
    t.eovf = (if w.toNat / 8 % 2 = 1 then false else s.eovf)

/-- R149: after an acknowledged error the next one is recorded in full. -/
def Obligations.AcknowledgedErrorIsRecordedAnew : Prop :=
  ∀ (s : State) (w : Word) (e : ErrorCode) (info : Word), w.toNat / 4 % 2 = 1 →
    (((s.busWrite 0x004#12 4 w).1).record e info).err = true ∧
    (((s.busWrite 0x004#12 4 w).1).record e info).errcode.toNat = (errorCode e).toNat ∧
    (((s.busWrite 0x004#12 4 w).1).record e info).errinfo = info

/-- R57, R143, R33: a write of CMD with nothing pending is accepted, whatever the word: LASTCMD and PENDING take it, BUSY reads 1;
with a command pending it is rejected: CMD_WHILE_BUSY (code 4) with the word is recorded and nothing else changes. A read of CMD
gives LASTCMD. -/
def Obligations.CmdIssueOrReject : Prop :=
  ∀ (s : State) (c : Word),
    (s.pending = none → s.busWrite 0x008#12 4 c = ({ s with lastcmd := c, pending := some c }, .ok)) ∧
    (s.pending ≠ none → s.busWrite 0x008#12 4 c = (recorded 4#32 c s, .ok)) ∧
    s.busRead 0x008#12 4 = .data s.lastcmd

/-- R58: a read of x[i] word j gives bits 255 − 32·j down to 224 − 32·j, also while a command is pending. -/
def Obligations.OperandWordRead : Prop :=
  ∀ (s : State) (i : Reg) (j : Fin 8),
    s.busRead (BitVec.ofNat 12 (0x100 + 0x20 * i.val + 4 * j.val)) 4 =
      .data (BitVec.ofNat 32 (s.x[i.val].toNat / 2 ^ (224 - 32 * j.val)))

/-- R59, R144: a write of x[i] word j with nothing pending sets that word, leaves the register's other words and everything else as
they were, and is answered Ok; with a command pending it is dropped and WRITE_WHILE_BUSY (code 5) with the offset is recorded. -/
def Obligations.OperandWordWrite : Prop :=
  ∀ (s : State) (i : Reg) (j : Fin 8) (w : Word) (off : Offset),
    off = BitVec.ofNat 12 (0x100 + 0x20 * i.val + 4 * j.val) →
    (s.pending = none → ∃ v : Operand, s.busWrite off 4 w = ({ s with x := s.x.set i.val v }, .ok) ∧
      v.toNat / 2 ^ (224 - 32 * j.val) % 2 ^ 32 = w.toNat ∧
      ∀ k : Fin 8, k ≠ j →
        v.toNat / 2 ^ (224 - 32 * k.val) % 2 ^ 32 = s.x[i.val].toNat / 2 ^ (224 - 32 * k.val) % 2 ^ 32) ∧
    (s.pending ≠ none → s.busWrite off 4 w = (recorded 5#32 (BitVec.ofNat 32 off.toNat) s, .ok))

/-- R61, R24: reads of MODP and MODN give the words of p and n, in every state. -/
def Obligations.ModulusWordRead : Prop :=
  ∀ (s : State) (j : Fin 8),
    s.busRead (BitVec.ofNat 12 (0x300 + 4 * j.val)) 4 =
      .data (BitVec.ofNat 32 ((2 ^ 256 - 2 ^ 32 - 977) / 2 ^ (224 - 32 * j.val))) ∧
    s.busRead (BitVec.ofNat 12 (0x320 + 4 * j.val)) 4 =
      .data (BitVec.ofNat 32 (0xFFFFFFFFFFFFFFFFFFFFFFFFFFFFFFFEBAAEDCE6AF48A03BBFD25E8CD0364141 / 2 ^ (224 - 32 * j.val)))

/-- R34, R35: reads of ERRCODE and ERRINFO give the record. -/
def Obligations.ErrorRecordRead : Prop :=
  ∀ s : State, s.busRead 0x00C#12 4 = .data s.errcode ∧ s.busRead 0x010#12 4 = .data s.errinfo

/-- R59, R64: an operand word written with nothing pending reads back at its offset, every other mapped word reads as before, and
writing it again changes nothing more. -/
def Obligations.OperandWordReadAfterWrite : Prop :=
  ∀ (s : State) (i : Reg) (j : Fin 8) (w : Word) (off off' : Offset), s.pending = none →
    locate off = some (.operand i j) → Offset.aligned off = true → Offset.aligned off' = true →
    ((s.busWrite off 4 w).1).busRead off 4 = .data w ∧
    (off' ≠ off → ((s.busWrite off 4 w).1).busRead off' 4 = s.busRead off' 4) ∧
    (((s.busWrite off 4 w).1).busWrite off 4 w).1 = (s.busWrite off 4 w).1

/-- R62, R60: writing the 32 bytes of a big-endian string word by word, word j being B[4j] ‖ B[4j+1] ‖ B[4j+2] ‖ B[4j+3], leaves in
x[i] the integer the string stands for, and reading the register back gives the same words ("derived: from rule R58 and rule R59"). -/
def Obligations.BigEndianTransfer : Prop :=
  ∀ (s : State) (i : Reg) (B : Fin 32 → BitVec 8), s.pending = none →
    let off : Fin 8 → Offset := fun j => BitVec.ofNat 12 (0x100 + 0x20 * i.val + 4 * j.val)
    let word : Fin 8 → Word := fun j =>
      B ⟨4 * j.val, by omega⟩ ++ B ⟨4 * j.val + 1, by omega⟩ ++ B ⟨4 * j.val + 2, by omega⟩ ++ B ⟨4 * j.val + 3, by omega⟩
    let t : State := (List.finRange 8).foldl (fun (u : State) (j : Fin 8) => (u.busWrite (off j) 4 (word j)).1) s
    (t.x[i.val]).toNat = (List.finRange 32).foldl (fun (acc : Nat) k => acc * 256 + (B k).toNat) 0 ∧
    ∀ j, t.busRead (off j) 4 = .data (word j)

/-- R11, R67: BASE is a multiple of 0x1000, the host address of an offset lies in the window and gives the offset back by its low 12
bits, and an address outside the window names no offset. -/
def Obligations.WindowDecodesLowBits : Prop :=
  Config.base % 0x1000 = 0 ∧
  (∀ off : Offset, windowOffset (busAddress off) = some off ∧ busAddress off % 0x1000 = off.toNat) ∧
  (∀ addr : Nat, windowOffset addr = none ↔ (addr < Config.base ∨ Config.base + 0x1000 ≤ addr))

/-! ## Reset and interrupt -/

/-- R41, R171, R173: at reset, after a hard reset and after a soft reset every operand register is 0, nothing is pending, CTRL,
STATUS, LASTCMD, ERRCODE and ERRINFO read 0, irq is 0, and MODP and MODN read p and n. -/
def Obligations.ResetState : Prop :=
  ∀ t : State,
    (t = State.reset ∨ (∃ s rest, s.agenda = .hardReset :: rest ∧ step s = .next t) ∨
      (∃ (s : State) (w : Word), w.toNat % 2 = 1 ∧ t = (s.busWrite 0x000#12 4 w).1)) →
    (∀ i : Reg, t.x[i.val] = 0#256) ∧ t.pending = none ∧ t.irq = false ∧
    t.busRead 0x000#12 4 = .data 0#32 ∧ t.busRead 0x004#12 4 = .data 0#32 ∧ t.busRead 0x008#12 4 = .data 0#32 ∧
    t.busRead 0x00C#12 4 = .data 0#32 ∧ t.busRead 0x010#12 4 = .data 0#32 ∧
    (∀ j : Fin 8,
      t.busRead (BitVec.ofNat 12 (0x300 + 4 * j.val)) 4 =
        .data (BitVec.ofNat 32 (modulus .p / 2 ^ (224 - 32 * j.val))) ∧
      t.busRead (BitVec.ofNat 12 (0x320 + 4 * j.val)) 4 =
        .data (BitVec.ofNat 32 (modulus .n / 2 ^ (224 - 32 * j.val))))

/-- R171, R172: a soft reset, busy or not, is answered Ok and leaves nothing of what the unit held: two states that differ only in the
unit's own state are the same after it. The pending command is aborted: DONE is 0. -/
def Obligations.SoftResetErasesEverything : Prop :=
  ∀ (s s' : State) (w : Word), w.toNat % 2 = 1 → s.agenda = s'.agenda → s.replies = s'.replies →
    s.hostTurn (.write 0x000#12 4 w) = s'.hostTurn (.write 0x000#12 4 w) ∧
    (s.hostTurn (.write 0x000#12 4 w)).pending = none ∧ (s.hostTurn (.write 0x000#12 4 w)).done = false ∧
    (∀ i : Reg, (s.hostTurn (.write 0x000#12 4 w)).x[i.val] = 0#256) ∧
    (s.hostTurn (.write 0x000#12 4 w)).replies = .ok :: s.replies

/-- R40, R151: irq is DONE ∧ DONEIE or ERR ∧ ERRIE. A completion, of a legal or an illegal word, sets DONE and so asserts irq in its
step when DONEIE = 1, and an errored one also when ERRIE = 1; a rejected issue and a dropped operand write set ERR and not DONE; a
reset deasserts irq (R151 is "derived: from rule R145" and others). -/
def Obligations.InterruptFollowsCompletionAndError : Prop :=
  (∀ s : State, s.irq = true ↔ (s.done = true ∧ s.doneie = true) ∨ (s.err = true ∧ s.errie = true)) ∧
  (∀ (s t : State) (c : Word), s.pending = some c → s.unitTurn = .next t →
    t.done = true ∧ (s.doneie = true → t.irq = true) ∧ (t.err = true → s.errie = true → t.irq = true)) ∧
  (∀ s : State, s.unitReset.irq = false) ∧
  (∀ (s : State) (c w : Word) (i : Reg) (j : Fin 8) (off : Offset), s.pending = some c →
    (s.issue w).err = true ∧ (s.issue w).done = s.done ∧
    (s.writeOperandWord off i j w).err = true ∧ (s.writeOperandWord off i j w).done = s.done ∧
    (s.errie = true → (s.issue w).irq = true ∧ (s.writeOperandWord off i j w).irq = true))

/-! ## Hazards and sticky bits -/

/-- R180, R181: a host that writes operands and CMD only while BUSY = 0 raises no error by its own transactions: ERR and EOVF are set
after one only if they were before. -/
def Obligations.DisciplinedHostRaisesNothing : Prop :=
  ∀ (s : State) (t : Transaction), s.allows t = true →
    ((s.hostTurn t).err = true → s.err = true) ∧ ((s.hostTurn t).eovf = true → s.eovf = true)

/-- R182: the clearing of DONE and the completion in either order: cleared before, DONE is 1 in the end; cleared after, the new DONE
is lost, while BUSY reads 0 either way. -/
def Obligations.ClearingDoneLateLosesIt : Prop :=
  ∀ (s : State) (c : Word) (rest : List Turn), s.pending = some c →
    (∃ t, Host.Core.run core 2 { s with agenda := .host (.write 0x004#12 4 0x2#32) :: .unit :: rest } = .next t ∧
      t.done = true ∧ t.pending = none) ∧
    (∃ t, Host.Core.run core 2 { s with agenda := .unit :: .host (.write 0x004#12 4 0x2#32) :: rest } = .next t ∧
      t.done = false ∧ t.pending = none)

/-- R29, R184: ERR is sticky: a step that is neither a reset nor a STATUS write with bit 2 = 1 keeps it, with the first error's
record. -/
def Obligations.ErrIsSticky : Prop :=
  ∀ s t : State, step s = .next t → s.err = true →
    (∀ rest, s.agenda ≠ .hardReset :: rest) →
    (∀ a rest, s.agenda = .host a :: rest → a.softResets = false ∧ a.clearsErr = false) →
    t.err = true ∧ t.errcode = s.errcode ∧ t.errinfo = s.errinfo

/-- R184: after a completion with ERR = 0 the pending word was a command, none of its checks failed, and its result was written: its
value by R107 to R113 in its destination, the flags R104 gives, every other field as it was. -/
def Obligations.ErrZeroMeansResultWritten : Prop :=
  ∀ (s t : State) (c : Word), s.pending = some c → s.unitTurn = .next t → t.err = false →
    ∃ i, decode c = .command i ∧ producesResult s i ∧ exec i s = .next t ∧
      t = completed (modulus i.modulus) i.dest (resultOf s i) (geOf s i) s

/-- R28, R31: no transaction of a host sets DONE, and none changes Z, GE or HI unless it resets the unit. -/
def Obligations.HostNeverCompletes : Prop :=
  ∀ (s : State) (t : Transaction), ((s.hostTurn t).done = true → s.done = true) ∧
    (t.softResets = false → (s.hostTurn t).z = s.z ∧ (s.hostTurn t).ge = s.ge ∧ (s.hostTurn t).hi = s.hi)

/-! ## Invariants -/

/-- R34, R35, R33, R104, R141: every step keeps the invariant: the record is 0 without an error and names one that its information word
can raise with one, the pending word is LASTCMD's, and the flags are those of one result. -/
def Obligations.StepKeepsInv : Prop := ∀ s t : State, s.Inv → step s = .next t → t.Inv

/-- The invariant holds at reset. -/
def Obligations.ResetHasInv : Prop := State.reset.Inv
end

