-- ==== Sys2Proof/Laws/Arith.lean ====
section
/-! SUPPORT. The modular ladder is the power it stands for, and the other values in plain arithmetic. -/

namespace Sys2Proof.Laws

open Sys2Proof.Machine

/-- The loop's invariant: with an exponent of at most k bits it multiplies `b^e` into the accumulator. -/
theorem powModLoop_eq (m : Nat) : ∀ (k b e acc : Nat), e < 2 ^ k → acc < m →
    powModLoop m k b e acc = acc * b ^ e % m
  | 0, b, e, acc, he, hacc => by
    obtain rfl : e = 0 := by simpa using he
    simp [powModLoop, Nat.mod_eq_of_lt hacc]
  | k + 1, b, e, acc, he, hacc => by
    have hm : 0 < m := Nat.zero_lt_of_lt hacc
    have hhalf : e / 2 < 2 ^ k := by rw [pow_succ] at he; omega
    have hsq : (b * b) ^ (e / 2) = b ^ (2 * (e / 2)) := by rw [← pow_two, ← pow_mul]
    rw [powModLoop]
    by_cases hodd : e % 2 = 1
    · rw [if_pos hodd, powModLoop_eq m k _ _ _ hhalf (Nat.mod_lt _ hm)]
      have hsplit : b ^ e = b * b ^ (2 * (e / 2)) := by
        rw [← pow_succ']; congr 1; omega
      have hpow : (b * b % m) ^ (e / 2) % m = b ^ (2 * (e / 2)) % m := by
        rw [← Nat.pow_mod, hsq]
      rw [hsplit, ← mul_assoc, Nat.mul_mod, hpow, Nat.mod_mod, ← Nat.mul_mod]
    · rw [if_neg hodd, powModLoop_eq m k _ _ _ hhalf hacc]
      have hsplit : b ^ e = b ^ (2 * (e / 2)) := by congr 1; omega
      have hpow : (b * b % m) ^ (e / 2) % m = b ^ (2 * (e / 2)) % m := by
        rw [← Nat.pow_mod, hsq]
      rw [hsplit, Nat.mul_mod, hpow, ← Nat.mul_mod]

/-- EXP's value is `pow(a, e) mod m` for every exponent a register holds (spec/40_modarith.md R112). -/
theorem powMod_eq_pow_mod (a e m : Nat) (he : e < 2 ^ 256) (hm : 1 < m) : powMod a e m = a ^ e % m := by
  have h1 : 1 % m = 1 := Nat.mod_eq_of_lt hm
  rw [powMod, powModLoop_eq m 256 a e _ he (by omega), h1, one_mul]

/-- SUB's value without integers: "a − b when a ≥ b and a − b + m when a < b" (R108). -/
theorem valueSub_of_reduced {a b m : Nat} (ha : a < m) (hb : b < m) :
    valueSub a b m = if b ≤ a then a - b else a + m - b := by
  unfold valueSub
  split
  · rw [Int.emod_eq_of_lt (by omega) (by omega)]; omega
  · have h : ((a : Int) - b) % m = (a : Int) - b + m := by
      rw [← Int.add_emod_right, Int.emod_eq_of_lt (by omega) (by omega)]
    rw [h]; omega

/-- RED's value by a single subtraction, which suffices because 2m > 2^256 (R113). -/
theorem valueRed_of_lt_two_mul {a m : Nat} (h : a < 2 * m) : valueRed a m = if a < m then a else a - m := by
  unfold valueRed
  split
  · exact Nat.mod_eq_of_lt ‹_›
  · rw [Nat.mod_eq_sub_mod (by omega), Nat.mod_eq_of_lt (by omega)]

end Sys2Proof.Laws
end

