-- ==== Sys2Proof/Laws/Encoding.lean ====
section
/-! SUPPORT. Packing and unpacking the fields of a command word lose nothing, and each field as a number (spec/30_encoding.md R81). -/

namespace Sys2Proof.Laws

/-- Unpacking a packed word gives its fields back. -/
@[simp] theorem ofWord_toWord (f : C3R) : C3R.ofWord f.toWord = f := by
  obtain ⟨opc, m, rsv0, rd, ra, rb, rsv1⟩ := f
  simp only [C3R.ofWord, C3R.toWord, C3R.mk.injEq]
  refine ⟨?_, ?_, ?_, ?_, ?_, ?_, ?_⟩ <;>
  · apply BitVec.eq_of_getLsbD_eq
    intro k hk
    simp only [BitVec.getLsbD_extractLsb', BitVec.getLsbD_append, hk, decide_true, Bool.true_and]
    interval_cases k <;> simp

/-- Packing an unpacked word gives the word back. -/
@[simp] theorem toWord_ofWord (c : Word) : (C3R.ofWord c).toWord = c := by
  apply BitVec.eq_of_getLsbD_eq
  intro k hk
  simp only [C3R.ofWord, C3R.toWord, BitVec.getLsbD_extractLsb', BitVec.getLsbD_append]
  interval_cases k <;> simp

@[simp] theorem modulus_ofBit_bit (m : Modulus) : Modulus.ofBit m.bit = m := by cases m <;> rfl

@[simp] theorem modulus_bit_ofBit (b : BitVec 1) : (Modulus.ofBit b).bit = b := by
  revert b; decide

@[simp] theorem reg_ofField_field (r : Reg) : Reg.ofField (Reg.field r) = r := rfl

@[simp] theorem reg_field_ofField (f : BitVec 4) : Reg.field (Reg.ofField f) = f := rfl

/-- The fields of a word as numbers (R81). -/
theorem ofWord_toNat (c : Word) :
    (C3R.ofWord c).opc.toNat = c.toNat % 16 ∧ (C3R.ofWord c).rsv0.toNat = c.toNat / 32 % 8 ∧
    (C3R.ofWord c).rb.toNat = c.toNat / 2 ^ 16 % 16 ∧ (C3R.ofWord c).rsv1.toNat = c.toNat / 2 ^ 20 := by
  have hc := c.isLt
  simp only [C3R.ofWord, BitVec.extractLsb'_toNat, Nat.shiftRight_eq_div_pow]
  refine ⟨by simp, trivial, trivial, Nat.mod_eq_of_lt (by omega)⟩

end Sys2Proof.Laws
end

