-- ==== Sys2Proof/Laws/Operands.lean ====
section
/-! SUPPORT. The eight words of an operand: each reads back as written, a write leaves the others alone, and together they are
the operand (spec/20_memory.md R58, R59). -/

namespace Sys2Proof.Laws

open Sys2Proof.Machine

theorem getLsbD_setWordOf (v : Operand) (j : Fin 8) (w : Word) (k : Nat) (hk : k < 256) :
    (setWordOf v j w).getLsbD k =
      if 224 - 32 * j.val ≤ k ∧ k < 256 - 32 * j.val then w.getLsbD (k - (224 - 32 * j.val)) else v.getLsbD k := by
  have hmask : ∀ n : Nat, (0xFFFFFFFF#256).getLsbD n = decide (n < 32) := by
    intro n
    by_cases hn : n < 256
    · rw [show (0xFFFFFFFF#256) = (BitVec.allOnes 32).setWidth 256 from by decide, BitVec.getLsbD_setWidth,
        BitVec.getLsbD_allOnes]
      simp [hn]
    · rw [BitVec.getLsbD_of_ge _ _ (by omega)]
      symm; simp; omega
  unfold setWordOf
  rw [BitVec.getLsbD_or, BitVec.getLsbD_and, BitVec.getLsbD_not, BitVec.getLsbD_shiftLeft, BitVec.getLsbD_shiftLeft,
    hmask, BitVec.getLsbD_setWidth]
  have hj := j.isLt
  by_cases hlo : 224 - 32 * j.val ≤ k
  · by_cases hhi : k < 256 - 32 * j.val
    · have h1 : k - (224 - 32 * j.val) < 32 := by omega
      have h2 : k - (224 - 32 * j.val) < 256 := by omega
      simp [hk, hlo, hhi, h1, h2, Nat.not_lt.2 hlo]
    · have h1 : ¬ k - (224 - 32 * j.val) < 32 := by omega
      have h2 : w.getLsbD (k - (224 - 32 * j.val)) = false := BitVec.getLsbD_of_ge _ _ (by omega)
      simp [hk, hhi, h1, h2]
  · have h1 : k < 224 - 32 * j.val := by omega
    have h2 : ¬ (224 - 32 * j.val ≤ k) := hlo
    simp [hk, h1, h2]

/-- A word written reads back. -/
@[simp] theorem wordOf_setWordOf (v : Operand) (j : Fin 8) (w : Word) : wordOf (setWordOf v j w) j = w := by
  apply BitVec.eq_of_getLsbD_eq
  intro k hk
  have hj := j.isLt
  rw [wordOf, BitVec.getLsbD_extractLsb', getLsbD_setWordOf _ _ _ _ (by omega), if_pos (by omega)]
  simp [hk]

/-- The other seven words are unchanged. -/
theorem wordOf_setWordOf_ne (v : Operand) {j k : Fin 8} (w : Word) (h : k ≠ j) :
    wordOf (setWordOf v j w) k = wordOf v k := by
  apply BitVec.eq_of_getLsbD_eq
  intro b hb
  have hj := j.isLt
  have hk := k.isLt
  have hne : k.val ≠ j.val := fun e => h (Fin.ext e)
  rw [wordOf, wordOf, BitVec.getLsbD_extractLsb', BitVec.getLsbD_extractLsb', getLsbD_setWordOf _ _ _ _ (by omega),
    if_neg (by omega)]

/-- An operand is its eight words. -/
theorem eq_of_wordOf_eq {v w : Operand} (h : ∀ j, wordOf v j = wordOf w j) : v = w := by
  apply BitVec.eq_of_getLsbD_eq
  intro k hk
  have hword := congrArg (fun u : Word => u.getLsbD (k % 32)) (h ⟨7 - k / 32, by omega⟩)
  have hidx : 224 - 32 * (7 - k / 32) + k % 32 = k := by omega
  simpa [wordOf, BitVec.getLsbD_extractLsb', hidx, Nat.mod_lt] using hword

/-- Word j as a number: `v[255 − 32·j : 224 − 32·j]`. -/
theorem wordOf_toNat (v : Operand) (j : Fin 8) : (wordOf v j).toNat = v.toNat / 2 ^ (224 - 32 * j.val) % 2 ^ 32 := by
  rw [wordOf, BitVec.extractLsb'_toNat, Nat.shiftRight_eq_div_pow]

/-- `(writeReg i v).readReg` at i is v, for a v that fits. -/
theorem readReg_writeReg (s : State) (i : Reg) {v : Nat} (hv : v < 2 ^ 256) : (s.writeReg i v).readReg i = v := by
  simpa [State.readReg, State.writeReg] using hv

/-- A register write leaves the other registers alone. -/
theorem readReg_writeReg_ne (s : State) {i k : Reg} (v : Nat) (h : k ≠ i) : (s.writeReg i v).readReg k = s.readReg k := by
  have hne : i.val ≠ k.val := fun e => h (Fin.ext e.symm)
  simp [State.readReg, State.writeReg, hne]

theorem readReg_lt (s : State) (i : Reg) : s.readReg i < 2 ^ 256 := (s.x[i.val]).isLt

end Sys2Proof.Laws
end

