-- ==== Sys2Proof/Laws/PerInstr.lean ====
section
/-! SUPPORT. The family EncodesLegally: a command's fields are none of the illegal encodings (spec/30_encoding.md R88), whatever
its modulus and registers. -/

namespace Sys2Proof.Laws.EncodesLegally

def Statement (i : Instr) : Prop := i.fields.wellFormed = true

theorem add (m : Modulus) (rd ra rb : Reg) : Statement (.add m rd ra rb) := rfl
theorem sub (m : Modulus) (rd ra rb : Reg) : Statement (.sub m rd ra rb) := rfl
theorem mul (m : Modulus) (rd ra rb : Reg) : Statement (.mul m rd ra rb) := rfl
theorem div (m : Modulus) (rd ra rb : Reg) : Statement (.div m rd ra rb) := rfl
theorem inv (m : Modulus) (rd ra : Reg) : Statement (.inv m rd ra) := rfl
theorem exp (m : Modulus) (rd ra rb : Reg) : Statement (.exp m rd ra rb) := rfl
theorem red (m : Modulus) (rd ra : Reg) : Statement (.red m rd ra) := rfl

end Sys2Proof.Laws.EncodesLegally
end

