-- ==== Sys2Proof/Laws/Primes.lean ====
section
/-! SUPPORT. The two moduli are prime (spec/00_scope.md R10 says so from general knowledge; here it is proved), by Lucas and
Pocklington certificates whose powers are computed by the model's own ladder; hence an inverse exists and Fermat's power is
it (R17). A number in a lemma's name is the prime it is about. -/

namespace Sys2Proof.Laws

-- One theorem at a time: many kernel evaluations waiting at once would each hold a thread.
set_option Elab.async false

open Sys2Proof.Machine

/-- The ladder as a power in `ZMod`. -/
theorem cast_powMod (N a e : Nat) (he : e < 2 ^ 256) (hN : 1 < N) : ((powMod a e N : Nat) : ZMod N) = (a : ZMod N) ^ e := by
  rw [powMod_eq_pow_mod a e N he hN, ZMod.natCast_mod, Nat.cast_pow]

/-- Pocklington's criterion with one prime factor q of N − 1 above √N. -/
theorem prime_of_large_factor (N a q : Nat) (hq : q.Prime)
    (h : 1 < N ∧ N < 2 ^ 256 ∧ q ∣ N - 1 ∧ N < q * q ∧ powMod a (N - 1) N = 1 ∧
      Nat.gcd (powMod a ((N - 1) / q) N + (N - 1)) N = 1) : N.Prime := by
  obtain ⟨h1, hlt, hdvd, hqq, hone, hgcd⟩ := h
  have hr : (N.minFac).Prime := Nat.minFac_prime (by omega)
  have hrN : N.minFac ∣ N := Nat.minFac_dvd N
  set r := N.minFac with hrdef
  have hfact : Fact r.Prime := ⟨hr⟩
  have hpow : ∀ e, e < 2 ^ 256 → ((powMod a e N : Nat) : ZMod r) = (a : ZMod r) ^ e := by
    intro e he
    rw [powMod_eq_pow_mod a e N he h1, ← Nat.cast_pow, ZMod.natCast_eq_natCast_iff]
    exact (Nat.mod_modEq (a ^ e) N).of_dvd hrN
  have ha1 : (a : ZMod r) ^ (N - 1) = 1 := by
    rw [← hpow (N - 1) (by omega), hone, Nat.cast_one]
  have hne : (a : ZMod r) ^ ((N - 1) / q) ≠ 1 := by
    intro hcontra
    have hz : ((powMod a ((N - 1) / q) N + (N - 1) : Nat) : ZMod r) = 0 := by
      have hN0 : ((N : Nat) : ZMod r) = 0 := (ZMod.natCast_eq_zero_iff N r).2 hrN
      have hle : (N - 1) / q ≤ N - 1 := Nat.div_le_self _ _
      rw [Nat.cast_add, hpow _ (by omega), hcontra, Nat.cast_sub h1.le, hN0]
      simp
    have hdiv : r ∣ Nat.gcd (powMod a ((N - 1) / q) N + (N - 1)) N :=
      Nat.dvd_gcd ((ZMod.natCast_eq_zero_iff _ _).1 hz) hrN
    rw [hgcd] at hdiv
    exact hr.one_lt.ne' (Nat.dvd_one.1 hdiv)
  have hordN : orderOf (a : ZMod r) ∣ N - 1 := orderOf_dvd_of_pow_eq_one ha1
  have hordq : q ∣ orderOf (a : ZMod r) := by
    obtain ⟨k, hk⟩ := hordN
    have hcop : ¬ q ∣ k := by
      rintro ⟨l, rfl⟩
      apply hne
      have : (N - 1) / q = orderOf (a : ZMod r) * l := by
        rw [hk, show orderOf (a : ZMod r) * (q * l) = q * (orderOf (a : ZMod r) * l) by ring,
          Nat.mul_div_cancel_left _ hq.pos]
      rw [this, pow_mul, pow_orderOf_eq_one, one_pow]
    exact (hq.dvd_mul.1 (hk ▸ hdvd)).resolve_right hcop
  have ha0 : (a : ZMod r) ≠ 0 := by
    intro h0
    rw [h0, zero_pow (by omega)] at ha1
    exact zero_ne_one ha1
  have hqr : q ∣ r - 1 := hordq.trans (ZMod.orderOf_dvd_card_sub_one ha0)
  have hqlt : q < r := by
    have := Nat.le_of_dvd (by have := hr.one_lt; omega) hqr
    have := hr.one_lt
    omega
  by_contra hnp
  have hsq : r ^ 2 ≤ N := Nat.minFac_sq_le_self (by omega) hnp
  nlinarith

/-- Lucas' criterion from the list of all prime factors of N − 1, with their multiplicities. -/
theorem prime_of_all_factors (N a : Nat) (fs : List Nat) (hfs : ∀ f ∈ fs, f.Prime)
    (h : 1 < N ∧ N < 2 ^ 256 ∧ fs.prod = N - 1 ∧ powMod a (N - 1) N = 1 ∧
      ∀ f ∈ fs, powMod a ((N - 1) / f) N ≠ 1) : N.Prime := by
  obtain ⟨h1, hlt, hprod, hone, hne⟩ := h
  refine lucas_primality N (a : ZMod N) ?_ ?_
  · rw [← cast_powMod N a _ (by omega) h1, hone, Nat.cast_one]
  · intro q hq hdvd hcontra
    have hmem : q ∈ fs := by
      rw [← hprod] at hdvd
      obtain ⟨f, hf, hqf⟩ := (hq.prime.dvd_prod_iff).1 hdvd
      rwa [(Nat.prime_dvd_prime_iff_eq hq (hfs f hf)).1 hqf]
    have hle : (N - 1) / q ≤ N - 1 := Nat.div_le_self _ _
    rw [← cast_powMod N a _ (by omega) h1] at hcontra
    have hlt' : powMod a ((N - 1) / q) N < N := by
      rw [powMod_eq_pow_mod _ _ _ (by omega) h1]; exact Nat.mod_lt _ (by omega)
    have : powMod a ((N - 1) / q) N = 1 := by
      have h2 : ((powMod a ((N - 1) / q) N : Nat) : ZMod N) = ((1 : Nat) : ZMod N) := by rw [hcontra, Nat.cast_one]
      rw [ZMod.natCast_eq_natCast_iff] at h2
      exact Nat.ModEq.eq_of_lt_of_lt h2 hlt' h1
    exact hne q hmem this

theorem prime_1206781 : Nat.Prime 1206781 :=
  prime_of_large_factor 1206781 2 20113 (by norm_num) (by decide +kernel)

theorem prime_7240687 : Nat.Prime 7240687 :=
  prime_of_large_factor 7240687 2 1206781 prime_1206781 (by decide +kernel)

theorem prime_107590001 : Nat.Prime 107590001 := by
  refine prime_of_all_factors 107590001 3 [2, 2, 2, 2, 5, 5, 5, 5, 7, 29, 53] ?_ (by decide +kernel)
  simp only [List.mem_cons, List.not_mem_nil, or_false, forall_eq_or_imp, forall_eq]
  refine ⟨by norm_num, by norm_num, by norm_num, by norm_num, by norm_num, by norm_num, by norm_num, by norm_num, by norm_num, by norm_num, by norm_num⟩

theorem prime_255515944373312847190720520512484175977 : Nat.Prime 255515944373312847190720520512484175977 := by
  refine prime_of_all_factors 255515944373312847190720520512484175977 3 [2, 2, 2, 7, 7, 11, 1627, 2657, 4423, 41201, 96557, 7240687, 107590001] ?_ (by decide +kernel)
  simp only [List.mem_cons, List.not_mem_nil, or_false, forall_eq_or_imp, forall_eq]
  refine ⟨by norm_num, by norm_num, by norm_num, by norm_num, by norm_num, by norm_num, by norm_num, by norm_num, by norm_num, by norm_num, by norm_num, prime_7240687, prime_107590001⟩

theorem prime_205115282021455665897114700593932402728804164701536103180137503955397371 : Nat.Prime 205115282021455665897114700593932402728804164701536103180137503955397371 :=
  prime_of_large_factor 205115282021455665897114700593932402728804164701536103180137503955397371 2 255515944373312847190720520512484175977 prime_255515944373312847190720520512484175977 (by decide +kernel)

theorem prime_115792089237316195423570985008687907853269984665640564039457584007908834671663 : Nat.Prime 115792089237316195423570985008687907853269984665640564039457584007908834671663 :=
  prime_of_large_factor 115792089237316195423570985008687907853269984665640564039457584007908834671663 2 205115282021455665897114700593932402728804164701536103180137503955397371 prime_205115282021455665897114700593932402728804164701536103180137503955397371 (by decide +kernel)

theorem prime_4681609 : Nat.Prime 4681609 := by
  refine prime_of_all_factors 4681609 23 [2, 2, 2, 3, 97, 2011] ?_ (by decide +kernel)
  simp only [List.mem_cons, List.not_mem_nil, or_false, forall_eq_or_imp, forall_eq]
  refine ⟨by norm_num, by norm_num, by norm_num, by norm_num, by norm_num, by norm_num⟩

theorem prime_107361793816595537 : Nat.Prime 107361793816595537 := by
  refine prime_of_all_factors 107361793816595537 3 [2, 2, 2, 2, 16699, 85831, 4681609] ?_ (by decide +kernel)
  simp only [List.mem_cons, List.not_mem_nil, or_false, forall_eq_or_imp, forall_eq]
  refine ⟨by norm_num, by norm_num, by norm_num, by norm_num, by norm_num, by norm_num, prime_4681609⟩

theorem prime_44706919 : Nat.Prime 44706919 :=
  prime_of_large_factor 44706919 2 9349 (by norm_num) (by decide +kernel)

theorem prime_174723607534414371449 : Nat.Prime 174723607534414371449 := by
  refine prime_of_all_factors 174723607534414371449 3 [2, 2, 2, 17, 59, 4051, 120233, 44706919] ?_ (by decide +kernel)
  simp only [List.mem_cons, List.not_mem_nil, or_false, forall_eq_or_imp, forall_eq]
  refine ⟨by norm_num, by norm_num, by norm_num, by norm_num, by norm_num, by norm_num, by norm_num, prime_44706919⟩

theorem prime_545358713 : Nat.Prime 545358713 :=
  prime_of_large_factor 545358713 2 28181 (by norm_num) (by decide +kernel)

theorem prime_1627771 : Nat.Prime 1627771 :=
  prime_of_large_factor 1627771 2 1871 (by norm_num) (by decide +kernel)

theorem prime_297159362677 : Nat.Prime 297159362677 :=
  prime_of_large_factor 297159362677 2 1627771 prime_1627771 (by decide +kernel)

theorem prime_29047611873442575647497758179 : Nat.Prime 29047611873442575647497758179 := by
  refine prime_of_all_factors 29047611873442575647497758179 2 [2, 293, 305873, 545358713, 297159362677] ?_ (by decide +kernel)
  simp only [List.mem_cons, List.not_mem_nil, or_false, forall_eq_or_imp, forall_eq]
  refine ⟨by norm_num, by norm_num, by norm_num, prime_545358713, prime_297159362677⟩

theorem prime_341948486974166000522343609283189 : Nat.Prime 341948486974166000522343609283189 :=
  prime_of_large_factor 341948486974166000522343609283189 2 29047611873442575647497758179 prime_29047611873442575647497758179 (by decide +kernel)

theorem prime_115792089237316195423570985008687907852837564279074904382605163141518161494337 : Nat.Prime 115792089237316195423570985008687907852837564279074904382605163141518161494337 := by
  refine prime_of_all_factors 115792089237316195423570985008687907852837564279074904382605163141518161494337 7 [2, 2, 2, 2, 2, 2, 3, 149, 631, 107361793816595537, 174723607534414371449, 341948486974166000522343609283189] ?_ (by decide +kernel)
  simp only [List.mem_cons, List.not_mem_nil, or_false, forall_eq_or_imp, forall_eq]
  refine ⟨by norm_num, by norm_num, by norm_num, by norm_num, by norm_num, by norm_num, by norm_num, by norm_num, by norm_num, prime_107361793816595537, prime_174723607534414371449, prime_341948486974166000522343609283189⟩

/-- Both moduli are prime (spec/00_scope.md R10). -/
theorem prime_modulus (m : Modulus) : (modulus m).Prime := by
  cases m
  · exact prime_115792089237316195423570985008687907853269984665640564039457584007908834671663
  · exact prime_115792089237316195423570985008687907852837564279074904382605163141518161494337

theorem modulus_lt (m : Modulus) : modulus m < 2 ^ 256 := by cases m <;> decide

theorem two_lt_modulus (m : Modulus) : 2 < modulus m := by cases m <;> decide

/-- "2m > 2^256 for both moduli" (spec/40_modarith.md R113). -/
theorem lt_two_mul_modulus (m : Modulus) : 2 ^ 256 < 2 * modulus m := by cases m <;> decide

/-- The inverse of a nonzero residue: in [1, m − 1], with product 1 (R17, R111). -/
theorem invMod_spec (m : Modulus) {a : Nat} (h0 : 0 < a) (ha : a < modulus m) :
    1 ≤ invMod a (modulus m) ∧ invMod a (modulus m) < modulus m ∧ a * invMod a (modulus m) % modulus m = 1 := by
  have hp := prime_modulus m
  have hfact : Fact (modulus m).Prime := ⟨hp⟩
  have h2 := two_lt_modulus m
  have hpow : invMod a (modulus m) = a ^ (modulus m - 2) % modulus m :=
    powMod_eq_pow_mod _ _ _ (by have := modulus_lt m; omega) (by omega)
  have hmul : a * invMod a (modulus m) % modulus m = 1 := by
    have hcop : Nat.Coprime a (modulus m) := (Nat.coprime_of_lt_prime h0.ne' ha hp).symm
    have hfermat := Nat.ModEq.pow_totient hcop
    rw [Nat.totient_prime hp] at hfermat
    rw [hpow, Nat.mul_mod, Nat.mod_mod, ← Nat.mul_mod, ← pow_succ']
    have : modulus m - 2 + 1 = modulus m - 1 := by omega
    rw [this]
    simpa [Nat.ModEq, Nat.mod_eq_of_lt hp.one_lt] using hfermat
  refine ⟨?_, ?_, hmul⟩
  · rcases Nat.eq_zero_or_pos (invMod a (modulus m)) with hz | hz
    · rw [hz] at hmul; simp at hmul
    · exact hz
  · rw [hpow]; exact Nat.mod_lt _ (by omega)

/-- A product with a nonzero residue determines the other factor: inverses and quotients are unique (R17, R110). -/
theorem eq_of_mul_mod_eq (m : Modulus) {a y y' : Nat} (h0 : 0 < a) (ha : a < modulus m) (hy : y < modulus m)
    (hy' : y' < modulus m) (h : y * a % modulus m = y' * a % modulus m) : y = y' := by
  have hcop : Nat.Coprime a (modulus m) := (Nat.coprime_of_lt_prime h0.ne' ha (prime_modulus m)).symm
  have hmod : y ≡ y' [MOD modulus m] := Nat.ModEq.cancel_right_of_coprime hcop.symm h
  exact hmod.eq_of_lt_of_lt hy hy'

end Sys2Proof.Laws
end

