-- ==== Sys2Proof/Laws/State.lean ====
section
/-! SUPPORT. What each shared operation does to each field of the state, one lemma a field, so that no later proof unfolds
an update. -/

namespace Sys2Proof.Machine.State

@[simp] theorem writeReg_x (i : Reg) (v : Nat) (s : State) : (s.writeReg i v).x = s.x.set i.val (BitVec.ofNat 256 v) := rfl
@[simp] theorem writeReg_doneie (i : Reg) (v : Nat) (s : State) : (s.writeReg i v).doneie = s.doneie := rfl
@[simp] theorem writeReg_errie (i : Reg) (v : Nat) (s : State) : (s.writeReg i v).errie = s.errie := rfl
@[simp] theorem writeReg_done (i : Reg) (v : Nat) (s : State) : (s.writeReg i v).done = s.done := rfl
@[simp] theorem writeReg_err (i : Reg) (v : Nat) (s : State) : (s.writeReg i v).err = s.err := rfl
@[simp] theorem writeReg_eovf (i : Reg) (v : Nat) (s : State) : (s.writeReg i v).eovf = s.eovf := rfl
@[simp] theorem writeReg_z (i : Reg) (v : Nat) (s : State) : (s.writeReg i v).z = s.z := rfl
@[simp] theorem writeReg_ge (i : Reg) (v : Nat) (s : State) : (s.writeReg i v).ge = s.ge := rfl
@[simp] theorem writeReg_hi (i : Reg) (v : Nat) (s : State) : (s.writeReg i v).hi = s.hi := rfl
@[simp] theorem writeReg_lastcmd (i : Reg) (v : Nat) (s : State) : (s.writeReg i v).lastcmd = s.lastcmd := rfl
@[simp] theorem writeReg_errcode (i : Reg) (v : Nat) (s : State) : (s.writeReg i v).errcode = s.errcode := rfl
@[simp] theorem writeReg_errinfo (i : Reg) (v : Nat) (s : State) : (s.writeReg i v).errinfo = s.errinfo := rfl
@[simp] theorem writeReg_pending (i : Reg) (v : Nat) (s : State) : (s.writeReg i v).pending = s.pending := rfl
@[simp] theorem writeReg_agenda (i : Reg) (v : Nat) (s : State) : (s.writeReg i v).agenda = s.agenda := rfl
@[simp] theorem writeReg_replies (i : Reg) (v : Nat) (s : State) : (s.writeReg i v).replies = s.replies := rfl

@[simp] theorem setFlags_x (r m : Nat) (ge : Bool) (s : State) : (s.setFlags r m ge).x = s.x := rfl
@[simp] theorem setFlags_doneie (r m : Nat) (ge : Bool) (s : State) : (s.setFlags r m ge).doneie = s.doneie := rfl
@[simp] theorem setFlags_errie (r m : Nat) (ge : Bool) (s : State) : (s.setFlags r m ge).errie = s.errie := rfl
@[simp] theorem setFlags_done (r m : Nat) (ge : Bool) (s : State) : (s.setFlags r m ge).done = s.done := rfl
@[simp] theorem setFlags_err (r m : Nat) (ge : Bool) (s : State) : (s.setFlags r m ge).err = s.err := rfl
@[simp] theorem setFlags_eovf (r m : Nat) (ge : Bool) (s : State) : (s.setFlags r m ge).eovf = s.eovf := rfl
@[simp] theorem setFlags_z (r m : Nat) (ge : Bool) (s : State) : (s.setFlags r m ge).z = flagZ r := rfl
@[simp] theorem setFlags_ge (r m : Nat) (ge : Bool) (s : State) : (s.setFlags r m ge).ge = ge := rfl
@[simp] theorem setFlags_hi (r m : Nat) (ge : Bool) (s : State) : (s.setFlags r m ge).hi = flagHi r m := rfl
@[simp] theorem setFlags_lastcmd (r m : Nat) (ge : Bool) (s : State) : (s.setFlags r m ge).lastcmd = s.lastcmd := rfl
@[simp] theorem setFlags_errcode (r m : Nat) (ge : Bool) (s : State) : (s.setFlags r m ge).errcode = s.errcode := rfl
@[simp] theorem setFlags_errinfo (r m : Nat) (ge : Bool) (s : State) : (s.setFlags r m ge).errinfo = s.errinfo := rfl
@[simp] theorem setFlags_pending (r m : Nat) (ge : Bool) (s : State) : (s.setFlags r m ge).pending = s.pending := rfl
@[simp] theorem setFlags_agenda (r m : Nat) (ge : Bool) (s : State) : (s.setFlags r m ge).agenda = s.agenda := rfl
@[simp] theorem setFlags_replies (r m : Nat) (ge : Bool) (s : State) : (s.setFlags r m ge).replies = s.replies := rfl

@[simp] theorem retire_x (s : State) : (s.retire).x = s.x := rfl
@[simp] theorem retire_doneie (s : State) : (s.retire).doneie = s.doneie := rfl
@[simp] theorem retire_errie (s : State) : (s.retire).errie = s.errie := rfl
@[simp] theorem retire_done (s : State) : (s.retire).done = true := rfl
@[simp] theorem retire_err (s : State) : (s.retire).err = s.err := rfl
@[simp] theorem retire_eovf (s : State) : (s.retire).eovf = s.eovf := rfl
@[simp] theorem retire_z (s : State) : (s.retire).z = s.z := rfl
@[simp] theorem retire_ge (s : State) : (s.retire).ge = s.ge := rfl
@[simp] theorem retire_hi (s : State) : (s.retire).hi = s.hi := rfl
@[simp] theorem retire_lastcmd (s : State) : (s.retire).lastcmd = s.lastcmd := rfl
@[simp] theorem retire_errcode (s : State) : (s.retire).errcode = s.errcode := rfl
@[simp] theorem retire_errinfo (s : State) : (s.retire).errinfo = s.errinfo := rfl
@[simp] theorem retire_pending (s : State) : (s.retire).pending = none := rfl
@[simp] theorem retire_agenda (s : State) : (s.retire).agenda = s.agenda := rfl
@[simp] theorem retire_replies (s : State) : (s.retire).replies = s.replies := rfl

@[simp] theorem acknowledge_x (w : Word) (s : State) : (s.acknowledge w).x = s.x := rfl
@[simp] theorem acknowledge_doneie (w : Word) (s : State) : (s.acknowledge w).doneie = s.doneie := rfl
@[simp] theorem acknowledge_errie (w : Word) (s : State) : (s.acknowledge w).errie = s.errie := rfl
@[simp] theorem acknowledge_done (w : Word) (s : State) : (s.acknowledge w).done = (s.done && !w.getLsbD 1) := rfl
@[simp] theorem acknowledge_err (w : Word) (s : State) : (s.acknowledge w).err = (s.err && !w.getLsbD 2) := rfl
@[simp] theorem acknowledge_eovf (w : Word) (s : State) : (s.acknowledge w).eovf = (s.eovf && !w.getLsbD 3) := rfl
@[simp] theorem acknowledge_z (w : Word) (s : State) : (s.acknowledge w).z = s.z := rfl
@[simp] theorem acknowledge_ge (w : Word) (s : State) : (s.acknowledge w).ge = s.ge := rfl
@[simp] theorem acknowledge_hi (w : Word) (s : State) : (s.acknowledge w).hi = s.hi := rfl
@[simp] theorem acknowledge_lastcmd (w : Word) (s : State) : (s.acknowledge w).lastcmd = s.lastcmd := rfl
@[simp] theorem acknowledge_errcode (w : Word) (s : State) : (s.acknowledge w).errcode = if w.getLsbD 2 then 0#32 else s.errcode := rfl
@[simp] theorem acknowledge_errinfo (w : Word) (s : State) : (s.acknowledge w).errinfo = if w.getLsbD 2 then 0#32 else s.errinfo := rfl
@[simp] theorem acknowledge_pending (w : Word) (s : State) : (s.acknowledge w).pending = s.pending := rfl
@[simp] theorem acknowledge_agenda (w : Word) (s : State) : (s.acknowledge w).agenda = s.agenda := rfl
@[simp] theorem acknowledge_replies (w : Word) (s : State) : (s.acknowledge w).replies = s.replies := rfl

@[simp] theorem answer_x (r : Reply) (s : State) : (s.answer r).x = s.x := rfl
@[simp] theorem answer_doneie (r : Reply) (s : State) : (s.answer r).doneie = s.doneie := rfl
@[simp] theorem answer_errie (r : Reply) (s : State) : (s.answer r).errie = s.errie := rfl
@[simp] theorem answer_done (r : Reply) (s : State) : (s.answer r).done = s.done := rfl
@[simp] theorem answer_err (r : Reply) (s : State) : (s.answer r).err = s.err := rfl
@[simp] theorem answer_eovf (r : Reply) (s : State) : (s.answer r).eovf = s.eovf := rfl
@[simp] theorem answer_z (r : Reply) (s : State) : (s.answer r).z = s.z := rfl
@[simp] theorem answer_ge (r : Reply) (s : State) : (s.answer r).ge = s.ge := rfl
@[simp] theorem answer_hi (r : Reply) (s : State) : (s.answer r).hi = s.hi := rfl
@[simp] theorem answer_lastcmd (r : Reply) (s : State) : (s.answer r).lastcmd = s.lastcmd := rfl
@[simp] theorem answer_errcode (r : Reply) (s : State) : (s.answer r).errcode = s.errcode := rfl
@[simp] theorem answer_errinfo (r : Reply) (s : State) : (s.answer r).errinfo = s.errinfo := rfl
@[simp] theorem answer_pending (r : Reply) (s : State) : (s.answer r).pending = s.pending := rfl
@[simp] theorem answer_agenda (r : Reply) (s : State) : (s.answer r).agenda = s.agenda := rfl
@[simp] theorem answer_replies (r : Reply) (s : State) : (s.answer r).replies = r :: s.replies := rfl

@[simp] theorem unitReset_x (s : State) : (s.unitReset).x = State.reset.x := rfl
@[simp] theorem unitReset_doneie (s : State) : (s.unitReset).doneie = State.reset.doneie := rfl
@[simp] theorem unitReset_errie (s : State) : (s.unitReset).errie = State.reset.errie := rfl
@[simp] theorem unitReset_done (s : State) : (s.unitReset).done = State.reset.done := rfl
@[simp] theorem unitReset_err (s : State) : (s.unitReset).err = State.reset.err := rfl
@[simp] theorem unitReset_eovf (s : State) : (s.unitReset).eovf = State.reset.eovf := rfl
@[simp] theorem unitReset_z (s : State) : (s.unitReset).z = State.reset.z := rfl
@[simp] theorem unitReset_ge (s : State) : (s.unitReset).ge = State.reset.ge := rfl
@[simp] theorem unitReset_hi (s : State) : (s.unitReset).hi = State.reset.hi := rfl
@[simp] theorem unitReset_lastcmd (s : State) : (s.unitReset).lastcmd = State.reset.lastcmd := rfl
@[simp] theorem unitReset_errcode (s : State) : (s.unitReset).errcode = State.reset.errcode := rfl
@[simp] theorem unitReset_errinfo (s : State) : (s.unitReset).errinfo = State.reset.errinfo := rfl
@[simp] theorem unitReset_pending (s : State) : (s.unitReset).pending = State.reset.pending := rfl
@[simp] theorem unitReset_agenda (s : State) : (s.unitReset).agenda = s.agenda := rfl
@[simp] theorem unitReset_replies (s : State) : (s.unitReset).replies = s.replies := rfl

@[simp] theorem reset_x : State.reset.x = Vector.replicate 16 0#256 := rfl
@[simp] theorem reset_doneie : State.reset.doneie = false := rfl
@[simp] theorem reset_errie : State.reset.errie = false := rfl
@[simp] theorem reset_done : State.reset.done = false := rfl
@[simp] theorem reset_err : State.reset.err = false := rfl
@[simp] theorem reset_eovf : State.reset.eovf = false := rfl
@[simp] theorem reset_z : State.reset.z = false := rfl
@[simp] theorem reset_ge : State.reset.ge = false := rfl
@[simp] theorem reset_hi : State.reset.hi = false := rfl
@[simp] theorem reset_lastcmd : State.reset.lastcmd = 0#32 := rfl
@[simp] theorem reset_errcode : State.reset.errcode = 0#32 := rfl
@[simp] theorem reset_errinfo : State.reset.errinfo = 0#32 := rfl
@[simp] theorem reset_pending : State.reset.pending = none := rfl
@[simp] theorem reset_agenda : State.reset.agenda = [] := rfl
@[simp] theorem reset_replies : State.reset.replies = [] := rfl

@[simp] theorem record_x (e : ErrorCode) (info : Word) (s : State) : (s.record e info).x = s.x := by
  unfold record; split <;> rfl
@[simp] theorem record_doneie (e : ErrorCode) (info : Word) (s : State) : (s.record e info).doneie = s.doneie := by
  unfold record; split <;> rfl
@[simp] theorem record_errie (e : ErrorCode) (info : Word) (s : State) : (s.record e info).errie = s.errie := by
  unfold record; split <;> rfl
@[simp] theorem record_done (e : ErrorCode) (info : Word) (s : State) : (s.record e info).done = s.done := by
  unfold record; split <;> rfl
@[simp] theorem record_err (e : ErrorCode) (info : Word) (s : State) : (s.record e info).err = true := by
  unfold record; split <;> simp_all
@[simp] theorem record_eovf (e : ErrorCode) (info : Word) (s : State) : (s.record e info).eovf = (s.eovf || s.err) := by
  unfold record; split <;> simp_all
@[simp] theorem record_z (e : ErrorCode) (info : Word) (s : State) : (s.record e info).z = s.z := by
  unfold record; split <;> rfl
@[simp] theorem record_ge (e : ErrorCode) (info : Word) (s : State) : (s.record e info).ge = s.ge := by
  unfold record; split <;> rfl
@[simp] theorem record_hi (e : ErrorCode) (info : Word) (s : State) : (s.record e info).hi = s.hi := by
  unfold record; split <;> rfl
@[simp] theorem record_lastcmd (e : ErrorCode) (info : Word) (s : State) : (s.record e info).lastcmd = s.lastcmd := by
  unfold record; split <;> rfl
@[simp] theorem record_errcode (e : ErrorCode) (info : Word) (s : State) : (s.record e info).errcode = if s.err then s.errcode else (errorCode e).setWidth 32 := by
  unfold record; split <;> simp_all
@[simp] theorem record_errinfo (e : ErrorCode) (info : Word) (s : State) : (s.record e info).errinfo = if s.err then s.errinfo else info := by
  unfold record; split <;> simp_all
@[simp] theorem record_pending (e : ErrorCode) (info : Word) (s : State) : (s.record e info).pending = s.pending := by
  unfold record; split <;> rfl
@[simp] theorem record_agenda (e : ErrorCode) (info : Word) (s : State) : (s.record e info).agenda = s.agenda := by
  unfold record; split <;> rfl
@[simp] theorem record_replies (e : ErrorCode) (info : Word) (s : State) : (s.record e info).replies = s.replies := by
  unfold record; split <;> rfl

@[simp] theorem completeError_x (e : ErrorCode) (c : Word) (s : State) : (s.completeError e c).x = s.x := by
  simp [completeError]
@[simp] theorem completeError_doneie (e : ErrorCode) (c : Word) (s : State) : (s.completeError e c).doneie = s.doneie := by
  simp [completeError]
@[simp] theorem completeError_errie (e : ErrorCode) (c : Word) (s : State) : (s.completeError e c).errie = s.errie := by
  simp [completeError]
@[simp] theorem completeError_done (e : ErrorCode) (c : Word) (s : State) : (s.completeError e c).done = true := by
  simp [completeError]
@[simp] theorem completeError_err (e : ErrorCode) (c : Word) (s : State) : (s.completeError e c).err = true := by
  simp [completeError]
@[simp] theorem completeError_eovf (e : ErrorCode) (c : Word) (s : State) : (s.completeError e c).eovf = (s.eovf || s.err) := by
  simp [completeError]
@[simp] theorem completeError_z (e : ErrorCode) (c : Word) (s : State) : (s.completeError e c).z = s.z := by
  simp [completeError]
@[simp] theorem completeError_ge (e : ErrorCode) (c : Word) (s : State) : (s.completeError e c).ge = s.ge := by
  simp [completeError]
@[simp] theorem completeError_hi (e : ErrorCode) (c : Word) (s : State) : (s.completeError e c).hi = s.hi := by
  simp [completeError]
@[simp] theorem completeError_lastcmd (e : ErrorCode) (c : Word) (s : State) : (s.completeError e c).lastcmd = s.lastcmd := by
  simp [completeError]
@[simp] theorem completeError_errcode (e : ErrorCode) (c : Word) (s : State) : (s.completeError e c).errcode = if s.err then s.errcode else (errorCode e).setWidth 32 := by
  simp [completeError]
@[simp] theorem completeError_errinfo (e : ErrorCode) (c : Word) (s : State) : (s.completeError e c).errinfo = if s.err then s.errinfo else c := by
  simp [completeError]
@[simp] theorem completeError_pending (e : ErrorCode) (c : Word) (s : State) : (s.completeError e c).pending = none := by
  simp [completeError]
@[simp] theorem completeError_agenda (e : ErrorCode) (c : Word) (s : State) : (s.completeError e c).agenda = s.agenda := by
  simp [completeError]
@[simp] theorem completeError_replies (e : ErrorCode) (c : Word) (s : State) : (s.completeError e c).replies = s.replies := by
  simp [completeError]

@[simp] theorem completeResult_x (m : Nat) (rd : Reg) (r : Nat) (ge : Bool) (s : State) : (s.completeResult m rd r ge).x = s.x.set rd.val (BitVec.ofNat 256 r) := rfl
@[simp] theorem completeResult_doneie (m : Nat) (rd : Reg) (r : Nat) (ge : Bool) (s : State) : (s.completeResult m rd r ge).doneie = s.doneie := rfl
@[simp] theorem completeResult_errie (m : Nat) (rd : Reg) (r : Nat) (ge : Bool) (s : State) : (s.completeResult m rd r ge).errie = s.errie := rfl
@[simp] theorem completeResult_done (m : Nat) (rd : Reg) (r : Nat) (ge : Bool) (s : State) : (s.completeResult m rd r ge).done = true := rfl
@[simp] theorem completeResult_err (m : Nat) (rd : Reg) (r : Nat) (ge : Bool) (s : State) : (s.completeResult m rd r ge).err = s.err := rfl
@[simp] theorem completeResult_eovf (m : Nat) (rd : Reg) (r : Nat) (ge : Bool) (s : State) : (s.completeResult m rd r ge).eovf = s.eovf := rfl
@[simp] theorem completeResult_z (m : Nat) (rd : Reg) (r : Nat) (ge : Bool) (s : State) : (s.completeResult m rd r ge).z = flagZ r := rfl
@[simp] theorem completeResult_ge (m : Nat) (rd : Reg) (r : Nat) (ge : Bool) (s : State) : (s.completeResult m rd r ge).ge = ge := rfl
@[simp] theorem completeResult_hi (m : Nat) (rd : Reg) (r : Nat) (ge : Bool) (s : State) : (s.completeResult m rd r ge).hi = flagHi r m := rfl
@[simp] theorem completeResult_lastcmd (m : Nat) (rd : Reg) (r : Nat) (ge : Bool) (s : State) : (s.completeResult m rd r ge).lastcmd = s.lastcmd := rfl
@[simp] theorem completeResult_errcode (m : Nat) (rd : Reg) (r : Nat) (ge : Bool) (s : State) : (s.completeResult m rd r ge).errcode = s.errcode := rfl
@[simp] theorem completeResult_errinfo (m : Nat) (rd : Reg) (r : Nat) (ge : Bool) (s : State) : (s.completeResult m rd r ge).errinfo = s.errinfo := rfl
@[simp] theorem completeResult_pending (m : Nat) (rd : Reg) (r : Nat) (ge : Bool) (s : State) : (s.completeResult m rd r ge).pending = none := rfl
@[simp] theorem completeResult_agenda (m : Nat) (rd : Reg) (r : Nat) (ge : Bool) (s : State) : (s.completeResult m rd r ge).agenda = s.agenda := rfl
@[simp] theorem completeResult_replies (m : Nat) (rd : Reg) (r : Nat) (ge : Bool) (s : State) : (s.completeResult m rd r ge).replies = s.replies := rfl

end Sys2Proof.Machine.State
end

