-- ==== Sys2Proof/Laws/Window.lean ====
section
/-! SUPPORT. The window: where each word stands, when a transaction is refused, and everything a host's transaction can do. -/

namespace Sys2Proof.Laws

open Sys2Proof.Machine

/-- x[i] word j stands at 0x100 + 0x20·i + 4·j (spec/20_memory.md R54). -/
theorem locate_operand (i : Reg) (j : Fin 8) :
    locate (BitVec.ofNat 12 (0x100 + 0x20 * i.val + 4 * j.val)) = some (.operand i j) := by
  have hi := i.isLt
  have hj := j.isLt
  have ho : (BitVec.ofNat 12 (0x100 + 0x20 * i.val + 4 * j.val)).toNat = 0x100 + 0x20 * i.val + 4 * j.val := by
    rw [BitVec.toNat_ofNat]; omega
  unfold locate
  simp only [ho]
  repeat rw [if_neg (by omega)]
  rw [if_pos (by omega)]
  congr 2
  · apply Fin.ext; simp only [Fin.val_ofNat]; omega
  · apply Fin.ext; simp only [Fin.val_ofNat]; omega

/-- A word of an operand register is located at an offset in 0x100..0x2FF. -/
theorem locate_eq_operand {off : Offset} {i : Reg} {j : Fin 8} (h : locate off = some (.operand i j)) :
    0x100 ≤ off.toNat ∧ off.toNat < 0x300 := by
  unfold locate at h
  simp only at h
  repeat' split at h
  all_goals first | omega | simp at h

/-- Nothing is located exactly at R52's unmapped offsets. -/
theorem locate_eq_none_iff (off : Offset) (ha : Offset.aligned off = true) :
    locate off = none ↔ Offset.mapped off = false := by
  have hlt := off.isLt
  simp only [Offset.aligned, beq_iff_eq] at ha
  unfold locate Offset.mapped
  simp only
  repeat' split
  all_goals simp only [reduceCtorEq, true_iff, false_iff, Bool.and_eq_false_iff, Bool.not_eq_false', Bool.and_eq_true,
    decide_eq_true_eq]
  all_goals omega

/-- Reading is an answer and nothing else (R64). -/
theorem hostTurn_read (s : State) (off : Offset) (size : Nat) :
    s.hostTurn (.read off size) = s.answer (s.busRead off size) := rfl

/-- Everything a write can do: the answer, with one of the four effects of R54's writable words, or none. -/
theorem busWrite_cases (s : State) (off : Offset) (size : Nat) (v : Word) :
    (s.busWrite off size v = (s, .busError)) ∨
    (size = 4 ∧ locate off = some .ctrl ∧ s.busWrite off size v = (s.writeCtrl v, .ok)) ∨
    (size = 4 ∧ locate off = some .status ∧ s.busWrite off size v = (s.acknowledge v, .ok)) ∨
    (size = 4 ∧ locate off = some .cmd ∧ s.busWrite off size v = (s.issue v, .ok)) ∨
    (∃ i j, size = 4 ∧ off.toNat % 4 = 0 ∧ locate off = some (.operand i j) ∧
      s.busWrite off size v = (s.writeOperandWord off i j v, .ok)) := by
  unfold State.busWrite
  split
  next h =>
    simp only [legalAccess, Bool.and_eq_true, beq_iff_eq] at h
    obtain ⟨h4, hal⟩ := h
    split <;> simp_all
  next => exact .inl rfl

/-- The four offsets outside the operand registers that a located word names. -/
theorem locate_eq_ctrl {off : Offset} (h : locate off = some .ctrl) : off.toNat = 0x000 := by
  unfold locate at h
  simp only at h
  repeat' split at h
  all_goals first | assumption | simp at h

theorem locate_eq_status {off : Offset} (h : locate off = some .status) : off.toNat = 0x004 := by
  unfold locate at h
  simp only at h
  repeat' split at h
  all_goals first | assumption | simp at h

theorem locate_eq_cmd {off : Offset} (h : locate off = some .cmd) : off.toNat = 0x008 := by
  unfold locate at h
  simp only at h
  repeat' split at h
  all_goals first | assumption | simp at h

/-- R51's check, in words. -/
theorem legalAccess_iff (off : Offset) (size : Nat) :
    legalAccess off size = true ↔ size = 4 ∧ Offset.aligned off = true := by
  simp [legalAccess, Offset.aligned]

/-- A legal read of a located word. -/
theorem busRead_located (s : State) {off : Offset} {l : WindowWord} (ha : Offset.aligned off = true)
    (hl : locate off = some l) : s.busRead off 4 = .data (s.readWindow l) := by
  unfold State.busRead
  rw [if_pos ((legalAccess_iff off 4).2 ⟨rfl, ha⟩), hl]

/-- A read is answered BusError exactly when its size, its alignment or its offset is illegal (R51, R52). -/
theorem busRead_eq_busError_iff (s : State) (off : Offset) (size : Nat) :
    s.busRead off size = .busError ↔ Transaction.wellFormed (.read off size) = false := by
  unfold State.busRead
  by_cases hleg : legalAccess off size = true
  · rw [if_pos hleg]
    obtain ⟨rfl, ha⟩ := (legalAccess_iff off size).1 hleg
    have hn := locate_eq_none_iff off ha
    cases hl : locate off with
    | none => simp [Transaction.wellFormed, hn.1 hl]
    | some l =>
      have hm : Offset.mapped off = true := by
        cases h : Offset.mapped off
        · rw [hn.2 h] at hl; simp at hl
        · rfl
      simp [Transaction.wellFormed, ha, hm]
  · rw [if_neg hleg]
    have : ¬(size = 4 ∧ Offset.aligned off = true) := fun h => hleg ((legalAccess_iff off size).2 h)
    simp only [Transaction.wellFormed, true_iff]
    simp only [not_and, Bool.not_eq_true] at this
    by_cases h4 : size = 4
    · simp [this h4]
    · simp [h4]

/-- The read-only words stand exactly at R53's offsets. -/
theorem readOnly_iff_of_locate {off : Offset} {l : WindowWord} (ha : Offset.aligned off = true)
    (hl : locate off = some l) :
    Offset.readOnly off = true ↔ (l = .errcode ∨ l = .errinfo ∨ (∃ j, l = .modp j) ∨ ∃ j, l = .modn j) := by
  simp only [Offset.aligned, beq_iff_eq] at ha
  unfold locate at hl
  simp only at hl
  simp only [Offset.readOnly, Bool.or_eq_true, beq_iff_eq, Bool.and_eq_true, decide_eq_true_eq]
  repeat' split at hl
  all_goals try simp only [reduceCtorEq] at hl
  all_goals simp only [Option.some.injEq] at hl
  all_goals subst hl
  all_goals simp
  all_goals omega

/-- A write is refused, with no effect, exactly when it is not well-formed; otherwise it is answered Ok (R50 to R53). -/
theorem busWrite_reply (s : State) (off : Offset) (size : Nat) (v : Word) :
    (Transaction.wellFormed (.write off size v) = false → s.busWrite off size v = (s, .busError)) ∧
    (Transaction.wellFormed (.write off size v) = true → (s.busWrite off size v).2 = .ok) := by
  unfold State.busWrite
  by_cases hleg : legalAccess off size = true
  · rw [if_pos hleg]
    obtain ⟨rfl, ha⟩ := (legalAccess_iff off size).1 hleg
    have hn := locate_eq_none_iff off ha
    cases hl : locate off with
    | none => simp [Transaction.wellFormed, hn.1 hl]
    | some l =>
      have hm : Offset.mapped off = true := by
        cases h : Offset.mapped off
        · rw [hn.2 h] at hl; simp at hl
        · rfl
      have hr := readOnly_iff_of_locate ha hl
      cases l <;> simp at hr <;> simp [Transaction.wellFormed, ha, hm, hr]
  · rw [if_neg hleg]
    have : ¬(size = 4 ∧ Offset.aligned off = true) := fun h => hleg ((legalAccess_iff off size).2 h)
    simp only [not_and, Bool.not_eq_true] at this
    by_cases h4 : size = 4
    · simp [Transaction.wellFormed, this h4]
    · simp [Transaction.wellFormed, h4]

end Sys2Proof.Laws
end

