-- ==== Sys2Proof/Laws/Step.lean ====
section
/-! SUPPORT. Everything a completion and a step can do, said once. -/

namespace Sys2Proof.Laws

open Sys2Proof.Machine

/-- R103 after the decoding: one of the two errors, or a result. -/
theorem finish_cases (c : Word) (m : Nat) (rd : Reg) (need : List Nat) (zeroDivisor : Bool) (r : Nat) (ge : Bool)
    (s : State) :
    (allReduced m need = false ∧ s.finish c m rd need zeroDivisor r ge = s.completeError .operandNotReduced c) ∨
    (allReduced m need = true ∧ zeroDivisor = true ∧
      s.finish c m rd need zeroDivisor r ge = s.completeError .inversionOfZero c) ∨
    (allReduced m need = true ∧ zeroDivisor = false ∧
      s.finish c m rd need zeroDivisor r ge = s.completeResult m rd r ge) := by
  unfold State.finish
  cases allReduced m need <;> cases zeroDivisor <;> simp

/-- Every value is a residue (spec/40_modarith.md R100). -/
theorem powMod_lt (a e : Nat) (he : e < 2 ^ 256) (m : Modulus) : powMod a e (modulus m) < modulus m := by
  have := two_lt_modulus m
  rw [powMod_eq_pow_mod a e _ he (by omega)]
  exact Nat.mod_lt _ (by omega)

theorem valueInv_lt (a : Nat) (m : Modulus) : valueInv a (modulus m) < modulus m := by
  have he : modulus m - 2 < 2 ^ 256 := by have := modulus_lt m; omega
  unfold valueInv invMod
  exact powMod_lt a (modulus m - 2) he m

theorem valueSub_lt (a b : Nat) (m : Modulus) : valueSub a b (modulus m) < modulus m := by
  have := two_lt_modulus m
  unfold valueSub
  have h1 := Int.emod_nonneg ((a : Int) - b) (b := (modulus m : Int)) (by omega)
  have h2 := Int.emod_lt_of_pos ((a : Int) - b) (b := (modulus m : Int)) (by omega)
  omega

/-- Every command's completion: OPERAND_NOT_REDUCED by a command that checks, INVERSION_OF_ZERO by one that inverts, or a residue
written to its destination (R103, R105, R106). GE is set only by RED, for a residue the operand exceeds by the modulus. -/
theorem exec_cases (i : Instr) (s : State) :
    (i.checks = true ∧ exec i s = .next (s.completeError .operandNotReduced (encode i))) ∨
    (i.inverts = true ∧ exec i s = .next (s.completeError .inversionOfZero (encode i))) ∨
    ∃ r ge, r < modulus i.modulus ∧ (ge = true → r + modulus i.modulus < 2 ^ 256) ∧
      exec i s = .next (s.completeResult (modulus i.modulus) i.dest r ge) := by
  have hpos : 0 < modulus i.modulus := by have := two_lt_modulus i.modulus; omega
  cases i with
  | add m rd ra rb =>
    rcases finish_cases (encode (.add m rd ra rb)) (modulus m) rd [s.readReg ra, s.readReg rb] false
      (valueAdd (s.readReg ra) (s.readReg rb) (modulus m)) false s with h | h | h
    · exact .inl ⟨rfl, congrArg _ h.2⟩
    · exact absurd h.2.1 (by simp)
    · exact .inr (.inr ⟨_, _, Nat.mod_lt _ hpos, by simp, congrArg _ h.2.2⟩)
  | sub m rd ra rb =>
    rcases finish_cases (encode (.sub m rd ra rb)) (modulus m) rd [s.readReg ra, s.readReg rb] false
      (valueSub (s.readReg ra) (s.readReg rb) (modulus m)) false s with h | h | h
    · exact .inl ⟨rfl, congrArg _ h.2⟩
    · exact absurd h.2.1 (by simp)
    · exact .inr (.inr ⟨_, _, valueSub_lt _ _ m, by simp, congrArg _ h.2.2⟩)
  | mul m rd ra rb =>
    rcases finish_cases (encode (.mul m rd ra rb)) (modulus m) rd [s.readReg ra, s.readReg rb] false
      (valueMul (s.readReg ra) (s.readReg rb) (modulus m)) false s with h | h | h
    · exact .inl ⟨rfl, congrArg _ h.2⟩
    · exact absurd h.2.1 (by simp)
    · exact .inr (.inr ⟨_, _, Nat.mod_lt _ hpos, by simp, congrArg _ h.2.2⟩)
  | div m rd ra rb =>
    rcases finish_cases (encode (.div m rd ra rb)) (modulus m) rd [s.readReg ra, s.readReg rb] (s.readReg rb == 0)
      (valueDiv (s.readReg ra) (s.readReg rb) (modulus m)) false s with h | h | h
    · exact .inl ⟨rfl, congrArg _ h.2⟩
    · exact .inr (.inl ⟨rfl, congrArg _ h.2.2⟩)
    · exact .inr (.inr ⟨_, _, Nat.mod_lt _ hpos, by simp, congrArg _ h.2.2⟩)
  | inv m rd ra =>
    rcases finish_cases (encode (.inv m rd ra)) (modulus m) rd [s.readReg ra] (s.readReg ra == 0)
      (valueInv (s.readReg ra) (modulus m)) false s with h | h | h
    · exact .inl ⟨rfl, congrArg _ h.2⟩
    · exact .inr (.inl ⟨rfl, congrArg _ h.2.2⟩)
    · exact .inr (.inr ⟨_, _, valueInv_lt (s.readReg ra) m, by simp, congrArg _ h.2.2⟩)
  | exp m rd ra rb =>
    rcases finish_cases (encode (.exp m rd ra rb)) (modulus m) rd [s.readReg ra] false
      (valueExp (s.readReg ra) (s.readReg rb) (modulus m)) false s with h | h | h
    · exact .inl ⟨rfl, congrArg _ h.2⟩
    · exact absurd h.2.1 (by simp)
    · exact .inr (.inr ⟨_, _, powMod_lt _ _ (readReg_lt s rb) m, by simp, congrArg _ h.2.2⟩)
  | red m rd ra =>
    rcases finish_cases (encode (.red m rd ra)) (modulus m) rd [] false
      (valueRed (s.readReg ra) (modulus m)) (geRed (s.readReg ra) (modulus m)) s with h | h | h
    · exact absurd h.1 (by simp [allReduced])
    · exact absurd h.2.1 (by simp)
    · refine .inr (.inr ⟨valueRed (s.readReg ra) (modulus m), geRed (s.readReg ra) (modulus m), Nat.mod_lt _ hpos, ?_,
        congrArg Host.Outcome.next h.2.2⟩)
      intro hge
      have hle : modulus m ≤ s.readReg ra := by simpa [geRed] using hge
      have h2 := lt_two_mul_modulus m
      have h3 := readReg_lt s ra
      change valueRed (s.readReg ra) (modulus m) + modulus m < 2 ^ 256
      rw [valueRed_of_lt_two_mul (by omega), if_neg (by omega)]
      omega

/-- Everything the unit agent's turn can do (R101, R103). -/
theorem unitTurn_cases (s : State) :
    (s.pending = none ∧ s.unitTurn = .next s) ∨
    (∃ c why, s.pending = some c ∧ decode c = .illegal why ∧ s.unitTurn = .next (s.completeError .illegalCommand c)) ∨
    (∃ c i, s.pending = some c ∧ decode c = .command i ∧ s.unitTurn = exec i s) := by
  unfold State.unitTurn State.complete
  cases hp : s.pending with
  | none => exact .inl ⟨rfl, rfl⟩
  | some c => cases hd : decode c with
    | illegal why => exact .inr (.inl ⟨c, why, rfl, hd, by simp [hd]⟩)
    | command i => exact .inr (.inr ⟨c, i, rfl, hd, by simp [hd]⟩)

/-- A run of one step more is the rest of the run from the next state. -/
theorem run_of_step (M : Host.Core) (k : Nat) {s t : M.State} (h : M.step s = .next t) : M.run (k + 1) s = M.run k t := by
  rw [Host.Core.run, h]

end Sys2Proof.Laws
end

