-- ==== Sys2Proof/Tests/Slice0.lean ====
section
/-! SUPPORT. Tests on fixed values, each expected result from spec/95_test_vectors.md or the rule named, and for every statement
with hypotheses a witness that meets them together. -/

namespace Sys2Proof.Tests

-- One theorem at a time: many kernel evaluations waiting at once would each hold a thread.
set_option Elab.async false

open Sys2Proof.Machine

/-! ## Helpers -/

/-- The reset state with some operand registers loaded. -/
def st (regs : List (Reg × Nat)) : State := regs.foldl (fun s p => s.writeReg p.1 p.2) State.reset

/-- The state after a step, the same state if it did not go on. -/
def next (s : State) : State :=
  match step s with
  | .next t => t
  | .fault _ => s
  | .refused _ => s

/-- The state after one command word runs. -/
def run1 (regs : List (Reg × Nat)) (w : Nat) : State := next ((st regs).withFetchWord 32 w)

/-- What a vector of section 2 shows: x[2], Z, GE, HI. -/
def shows (s : State) : Nat × Bool × Bool × Bool := (s.readReg 2, s.z, s.ge, s.hi)

/-- What an error row shows: STATUS, ERRCODE, ERRINFO, x[2]. -/
def showsError (s : State) : Word × Word × Word × Nat := (s.statusWord, s.errcode, s.errinfo, s.readReg 2)

/-- The state after a write of the host. -/
def wr (off : Offset) (v : Word) (s : State) : State := (s.busWrite off 4 v).1

def pM : Nat := Config.fieldPrime
def nM : Nat := Config.curveOrder

/-! ## Well-formedness: an ill-formed term for each check -/

theorem smoke_opcode_zero : C3R.opcodeLegal ⟨0#4, 0#1, 0#3, 0#4, 0#4, 0#4, 0#12⟩ = false := by decide
theorem smoke_opcode_eight : C3R.wellFormed ⟨8#4, 0#1, 0#3, 0#4, 0#4, 0#4, 0#12⟩ = false := by decide
theorem smoke_rsv0 : C3R.reservedZero ⟨1#4, 0#1, 4#3, 0#4, 0#4, 0#4, 0#12⟩ = false := by decide
theorem smoke_rsv1 : C3R.wellFormed ⟨1#4, 0#1, 0#3, 0#4, 0#4, 0#4, 0x800#12⟩ = false := by decide
theorem smoke_unused_inv : C3R.unusedZero ⟨5#4, 0#1, 0#3, 0#4, 0#4, 15#4, 0#12⟩ = false := by decide
theorem smoke_unused_red : C3R.wellFormed ⟨7#4, 0#1, 0#3, 0#4, 0#4, 1#4, 0#12⟩ = false := by decide
theorem smoke_legal : C3R.wellFormed ⟨6#4, 1#1, 0#3, 15#4, 15#4, 15#4, 0#12⟩ = true := by decide
theorem smoke_size : Transaction.wellFormed (.read 0x100#12 1) = false := by decide
theorem smoke_misaligned : Transaction.wellFormed (.read 0x002#12 4) = false := by decide
theorem smoke_unmapped : Transaction.wellFormed (.read 0x014#12 4) = false ∧
    Transaction.wellFormed (.read 0x340#12 4) = false := by decide
theorem smoke_readOnly : Transaction.wellFormed (.write 0x00C#12 4 1#32) = false ∧
    Transaction.wellFormed (.write 0x300#12 4 0#32) = false := by decide
theorem smoke_transaction_legal : Transaction.wellFormed (.write 0x2FC#12 4 0#32) = true := by decide

/-! ## Decoding: words written out bit by bit from R81 and R86 (RSV1 RB RA RD RSV0 M OPC) -/

theorem test_decode_add : decode 0b00000000000000010000001000000001#32 = .command (.add .p 2 0 1) := by decide
theorem test_decode_sub : decode 0b00000000000000010000001000010010#32 = .command (.sub .n 2 0 1) := by decide
theorem test_decode_mul : decode 0b00000000000000100001001100000011#32 = .command (.mul .p 3 1 2) := by decide
theorem test_decode_div : decode 0b00000000000000110100010100010100#32 = .command (.div .n 5 4 3) := by decide
theorem test_decode_inv : decode 0b00000000000000000100010000010101#32 = .command (.inv .n 4 4) := by decide
theorem test_decode_exp : decode 0b00000000000011111111111100010110#32 = .command (.exp .n 15 15 15) := by decide
theorem test_decode_red : decode 0b00000000000000000001000100010111#32 = .command (.red .n 1 1) := by decide
/-- V-DEC-1, 4, 5, 6, 7, 8, 9, 12, 13, 16. -/
theorem test_decode_illegal :
    [0x00000000#32, 0x00000008#32, 0x0000000F#32, 0x00000021#32, 0x00000081#32, 0x00100001#32, 0x80000001#32,
      0x000FFF15#32, 0x00010207#32, 0xFFFFFFFF#32].map decode =
    [.illegal .opcode, .illegal .opcode, .illegal .opcode, .illegal .reservedBits, .illegal .reservedBits,
      .illegal .reservedBits, .illegal .reservedBits, .illegal .unusedField, .illegal .unusedField,
      .illegal .reservedBits] := by decide
/-- R89's examples. -/
theorem test_text : Instr.text (.mul .p 3 1 2) = "mul.p v3, v1, v2" ∧ Instr.text (.inv .n 4 4) = "inv.n v4, v4" ∧
    AsmLine.text (.word 0x000FFF15#32) = ".word 0x000FFF15" ∧ Pseudo.text (.chk .n 15) = "chk.n v15" := by decide
/-- P3 step 6: `neg.n v5, v5, v15` is 0x0005F512. -/
theorem test_neg : (AsmLine.pseudo (.neg .n 5 5 15)).assemble = 0x0005F512#32 := by decide
theorem test_encode_examples : encode (.mul .p 3 1 2) = 0x00021303#32 ∧ encode (.inv .n 4 4) = 0x00004415#32 := by decide

/-! ## Values: vectors of section 2 -/

/-- V-ADD-2 and V-ADD-7. -/
theorem test_add : shows (run1 [(0, pM - 1), (1, 1)] 0x00010201) = (0, true, false, false) ∧
    shows (run1 [(0, (nM - 1) / 2), (1, 1)] 0x00010211) = ((nM + 1) / 2, false, false, true) := by decide +kernel
/-- V-SUB-1 and V-SUB-5. -/
theorem test_sub : shows (run1 [(0, 0), (1, 1)] 0x00010202) = (pM - 1, false, false, true) ∧
    shows (run1 [(0, 0x79BE667EF9DCBBAC55A06295CE870B07029BFCDB2DCE28D959F2815B16F81798),
        (1, 0x483ADA7726A3C4655DA4FBFC0E1108A8FD17B448A68554199C47D08FFB10D4B8)] 0x00010202) =
      (0x31838C07D338F746F7FB6699C076025E058448928748D4BFBDAAB0CB1BE742E0, false, false, false) := by decide +kernel
/-- V-MUL-3 and V-MUL-4: the high half is not dropped, and the product is not a Montgomery one. -/
theorem test_mul : shows (run1 [(0, 2 ^ 128), (1, 2 ^ 128)] 0x00010203) = (0x1000003D1, false, false, false) ∧
    shows (run1 [(0, 2 ^ 128), (1, 2 ^ 128)] 0x00010213) =
      (0x14551231950B75FC4402DA1732FC9BEBF, false, false, false) := by decide +kernel
/-- V-DIV-10. -/
theorem test_div : shows (run1 [(0, 0x483ADA7726A3C4655DA4FBFC0E1108A8FD17B448A68554199C47D08FFB10D4B8),
        (1, 0x79BE667EF9DCBBAC55A06295CE870B07029BFCDB2DCE28D959F2815B16F81798)] 0x00010204) =
      (0xD4F07956F8BBCB106944CA0EE2D36976D2ABD552E77A515F517832DC5ABC3C4C, false, false, true) := by decide +kernel
/-- V-DIV-4. -/
theorem test_div_n : shows (run1 [(0, 1), (1, 3)] 0x00010214) =
      (0xAAAAAAAAAAAAAAAAAAAAAAAAAAAAAAA9D1C9E899CA306AD27FE1945DE0242B81, false, false, true) := by decide +kernel
/-- V-INV-9 and the example of R111. -/
theorem test_inv : shows (run1 [(0, 0x79BE667EF9DCBBAC55A06295CE870B07029BFCDB2DCE28D959F2815B16F81798)] 0x00000205) =
      (0x237AFDF1D2938D86870AAEB8AD77626A67B8E794ABFB076BE61D003687CA9EF6, false, false, false) ∧
    shows (run1 [(0, 2)] 0x00000215) = ((nM + 1) / 2, false, false, true) := by decide +kernel
/-- V-EXP-8 and V-EXP-2: an exponent above m is legal, and 0^0 = 1. -/
theorem test_exp : shows (run1 [(0, 2), (1, 2 ^ 256 - 1)] 0x00010206) =
      (0x8DEF9A2D066170A549DA6A66080937DB048EFE08772C8F7C20E351DFB71856E0, false, false, true) ∧
    shows (run1 [] 0x00010206) = (1, false, false, false) := by decide +kernel
/-- V-RED-3 and V-RED-4. -/
theorem test_red : shows (run1 [(0, pM)] 0x00000207) = (0, true, true, false) ∧
    shows (run1 [(0, pM)] 0x00000217) = (0x14551231950B75FC4402DA1722FC9BAEE, false, true, false) := by decide +kernel
/-- R102: `mul.p v1, v1, v1` reads before it writes; x[1] = p − 2 becomes 4. -/
theorem test_rd_is_source : (run1 [(1, pM - 2)] 0x00011103).readReg 1 = 4 := by decide +kernel

/-! ## Errors: vectors of sections 2 and 3.3 -/

/-- V-DIV-8 and V-DIV-7: reduction is checked before 0. -/
theorem test_div_errors : showsError (run1 [(0, pM)] 0x00010204) = (0x6#32, 0x02#32, 0x00010204#32, 0) ∧
    showsError (run1 [] 0x00010204) = (0x6#32, 0x03#32, 0x00010204#32, 0) := by decide +kernel
/-- V-EXP-12 and V-INV-8. -/
theorem test_unreduced : showsError (run1 [(0, pM)] 0x00010206) = (0x6#32, 0x02#32, 0x00010206#32, 0) ∧
    showsError (run1 [(0, pM - 1)] 0x00000215) = (0x6#32, 0x02#32, 0x00000215#32, 0) := by decide +kernel
/-- V-INV-11: an illegal word. -/
theorem test_illegal : showsError (run1 [(0, 2)] 0x00010205) = (0x6#32, 0x01#32, 0x00010205#32, 0) := by decide +kernel
/-- V-ST-5, V-ST-6, V-ST-7: the first error is kept, EOVF, and the W1C clear. -/
theorem test_second_error :
    let s := next ((run1 [] 0x00000205).withFetchWord 32 0x00000000)
    showsError s = (0xE#32, 0x03#32, 0x00000205#32, 0) ∧ s.lastcmd = 0#32 ∧
      showsError (wr 0x004#12 0x4#32 s) = (0xA#32, 0#32, 0#32, 0) := by decide +kernel
/-- V-ST-9: a write dropped while busy. -/
theorem test_write_while_busy :
    let s := wr 0x120#12 0#32 (wr 0x008#12 0x00010204#32 (st [(0, 1), (1, 2)]))
    showsError s = (0x5#32, 0x05#32, 0x120#32, 0) ∧
      ((next s).statusWord, (next s).readReg 2, (next s).readReg 1) = (0x406#32, (pM + 1) / 2, 2) := by decide +kernel
/-- P4 part B, outcome B1: the second issue before the completion. -/
theorem test_cmd_while_busy :
    let s := wr 0x008#12 0x00000201#32 (wr 0x008#12 0x00000105#32 (st [(0, 3)]))
    (s.statusWord, s.errcode, s.errinfo, s.lastcmd) = (0x5#32, 0x04#32, 0x00000201#32, 0x00000105#32) ∧
      (next s).statusWord = 0x406#32 := by decide +kernel
/-- P5: the soft reset aborts a pending command. -/
theorem test_abort : wr 0x000#12 1#32 (wr 0x008#12 0x00010206#32 (st [(0, 2)])) = State.reset := by decide +kernel

/-! ## The window: vectors of section 3.2 -/

/-- V-BUS-14 and V-BUS-15. -/
theorem test_ctrl : (wr 0x000#12 0xFFFFFFFE#32 State.reset).busRead 0x000#12 4 = .data 0x6#32 ∧
    wr 0x000#12 0x7#32 (wr 0x000#12 0xFFFFFFFE#32 State.reset) = State.reset := by decide +kernel
/-- V-BUS-17 and V-BUS-18: word 0 is the most significant. -/
theorem test_load :
    let words : List Word := [0x79BE667E#32, 0xF9DCBBAC#32, 0x55A06295#32, 0xCE870B07#32, 0x029BFCDB#32, 0x2DCE28D9#32,
      0x59F2815B#32, 0x16F81798#32]
    let s := (words.foldl (fun (q : Nat × State) w => (q.1 + 4, wr (BitVec.ofNat 12 q.1) w q.2)) (0x100, State.reset)).2
    s.readReg 0 = 0x79BE667EF9DCBBAC55A06295CE870B07029BFCDB2DCE28D959F2815B16F81798 ∧
      (wr 0x11C#12 0#32 s).readReg 0 = 0x79BE667EF9DCBBAC55A06295CE870B07029BFCDB2DCE28D959F2815B00000000 := by
  decide +kernel
/-- V-BUS-19. -/
theorem test_offsets : locate 0x11C#12 = some (.operand 0 7) ∧ locate 0x120#12 = some (.operand 1 0) ∧
    locate 0x1AC#12 = some (.operand 5 3) ∧ locate 0x2FC#12 = some (.operand 15 7) := by decide
/-- V-BUS-7, its last two words, and V-BUS-9, 10, 11. -/
theorem test_reads : State.reset.busRead 0x338#12 4 = .data 0xBFD25E8C#32 ∧
    State.reset.busRead 0x33C#12 4 = .data 0xD0364141#32 ∧ State.reset.busRead 0xFFC#12 4 = .busError ∧
    State.reset.busRead 0x002#12 4 = .busError ∧ State.reset.busRead 0x100#12 1 = .busError := by decide +kernel

/-! ## A turn of each kind, and the word the host fetches -/

theorem test_fetch_word : decodeTableWord 32 0x00021303 = some (.mul .p 3 1 2) ∧ decodeTableWord 32 0 = none := by decide
theorem test_hard_reset : next ({ st [(3, 5)] with agenda := [.hardReset] }) = State.reset := by decide +kernel
theorem test_host_turn :
    (next { State.reset with agenda := [.host (.write 0x008#12 4 0x1#32)] }).pending = some 0x1#32 := by decide +kernel
theorem test_idle : next State.reset = State.reset := by decide +kernel
theorem test_family_holds (i : Instr) : Laws.EncodesLegally.Statement i := by
  cases i with
  | add m rd ra rb => exact Laws.EncodesLegally.add m rd ra rb
  | sub m rd ra rb => exact Laws.EncodesLegally.sub m rd ra rb
  | mul m rd ra rb => exact Laws.EncodesLegally.mul m rd ra rb
  | div m rd ra rb => exact Laws.EncodesLegally.div m rd ra rb
  | inv m rd ra => exact Laws.EncodesLegally.inv m rd ra
  | exp m rd ra rb => exact Laws.EncodesLegally.exp m rd ra rb
  | red m rd ra => exact Laws.EncodesLegally.red m rd ra

/-! ## Witnesses: for each statement with hypotheses, a state and operands that meet them together -/

theorem witness_EncodeOfDecode : decode 0x000FFF16#32 = .command (.exp .n 15 15 15) := by decide
/-- The largest reduced operands; for ADD, SUB, MUL, and EXP's base, and PointTests. -/
theorem witness_AddSubMulExp : (st [(0, pM - 1), (1, pM - 1)]).x[(0 : Reg).val].toNat < modulus .p ∧
    (st [(0, pM - 1), (1, pM - 1)]).x[(1 : Reg).val].toNat < modulus .p := by decide +kernel
theorem witness_DivCompletes : (st [(0, 0), (1, nM - 1)]).x[(0 : Reg).val].toNat < modulus .n ∧
    (st [(0, 0), (1, nM - 1)]).x[(1 : Reg).val].toNat < modulus .n ∧
    (st [(0, 0), (1, nM - 1)]).x[(1 : Reg).val].toNat ≠ 0 := by decide +kernel
theorem witness_InvCompletes : (st [(0, 1)]).x[(0 : Reg).val].toNat < modulus .p ∧
    (st [(0, 1)]).x[(0 : Reg).val].toNat ≠ 0 := by decide +kernel
/-- Each disjunct of the first clause, at the boundary value m, and the second clause. -/
theorem witness_UnreducedOperandRaises : modulus .p ≤ (st [(0, pM)]).x[(0 : Reg).val].toNat ∧
    modulus .n ≤ (st [(1, nM)]).x[(1 : Reg).val].toNat := by decide +kernel
theorem witness_InversionOfZeroRaises : (st [(0, pM - 1)]).x[(0 : Reg).val].toNat < modulus .p ∧
    (st [(0, pM - 1)]).x[(1 : Reg).val].toNat = 0 := by decide +kernel
theorem witness_IllegalWordRaises_empty :
    let s : State := { State.reset with pending := some 0x8#32 }
    s.pending = some 0x8#32 ∧ decode 0x8#32 = .illegal .opcode ∧ s.agenda = [] := by decide
theorem witness_IllegalWordRaises_unit :
    let s : State := { State.reset with pending := some 0x21#32, agenda := [.unit] }
    s.pending = some 0x21#32 ∧ decode 0x21#32 = .illegal .reservedBits ∧ s.agenda = .unit :: [] := by decide
theorem witness_RecordKeepsFirstError :
    State.reset.err = false ∧ (State.reset.record .cmdWhileBusy 0#32).err = true := by decide
/-- On a result and on an error, with an error recorded before, and an offset of the last clause: x[1] word 0, not RD's. -/
theorem witness_CommandFrame : (∃ t, exec (.add .p 2 0 1) (st []) = .next t ∧ t.err = false) ∧
    (∃ t, exec (.inv .p 2 0) (run1 [] 0x00000205) = .next t) ∧ (run1 [] 0x00000205).err = true ∧
    (1 : Reg) ≠ (Instr.add .p 2 0 1).dest ∧ locate 0x120#12 = some (.operand 1 0) ∧
    (∀ j, WindowWord.operand 1 0 ≠ .operand (Instr.add .p 2 0 1).dest j) :=
  ⟨⟨_, rfl, by decide +kernel⟩, ⟨_, rfl⟩, by decide +kernel, by decide, by decide, by decide⟩
/-- Other registers, other contents elsewhere, an error recorded in one of the two states only (INV of 0), the same operand values. -/
theorem witness_ResultDependsOnOperandsOnly :
    let s := run1 [(0, 5), (1, 7)] 0x00003215
    let s' := st [(3, 5), (4, 7), (9, 11)]
    s.err = true ∧ s'.err = false ∧ s.x[(0 : Reg).val] = s'.x[(3 : Reg).val] ∧
      s.x[(1 : Reg).val] = s'.x[(4 : Reg).val] := by decide +kernel
theorem witness_DivAgreesWithInvThenMul :
    let s := st [(0, pM - 1), (1, 3)]
    s.x[(0 : Reg).val].toNat < modulus .p ∧ s.x[(1 : Reg).val].toNat < modulus .p ∧ s.x[(1 : Reg).val].toNat ≠ 0 ∧
      (4 : Reg) ≠ 0 := by decide +kernel
theorem witness_ValueIdentities : pM - 1 < modulus .p ∧ 1 < modulus .p ∧ 2 < modulus .p ∧ (1 : Nat) ≠ 0 ∧ pM - 1 ≠ 0 ∧
    (2 ^ 255 - 1) + 2 ^ 255 < 2 ^ 256 := by decide +kernel
/-- The first result above n/2, from a state with an error recorded (INV of 0), and a register that holds 0 after it. -/
theorem witness_HiTellsLowS :
    let s := run1 [(0, (nM + 1) / 2)] 0x00003215
    s.err = true ∧ (Instr.add .n 2 0 1).modulus = .n ∧ Claims.producesResult s (.add .n 2 0 1) ∧
      ∃ t, exec (.add .n 2 0 1) s = .next t ∧ t.hi = true ∧ t.x[(15 : Reg).val].toNat = 0 :=
  ⟨by decide +kernel, rfl, ⟨by decide +kernel, by decide +kernel⟩, _, rfl, by decide +kernel, by decide +kernel⟩
theorem witness_ChildKeyTests : (2 : Reg) ≠ 1 ∧ (st [(0, nM), (1, nM - 1)]).x[(1 : Reg).val].toNat < modulus .n := by
  decide +kernel
theorem witness_StepRunsDecodedCommand :
    let s : State := { st [(0, 3)] with pending := some 0x00000205#32 }
    let s' : State := { s with agenda := [.unit, .hardReset] }
    s.pending = some 0x00000205#32 ∧ decode 0x00000205#32 = .command (.inv .p 2 0) ∧ s.agenda = [] ∧
      s'.pending = some 0x00000205#32 ∧ s'.agenda = .unit :: [.hardReset] := by decide +kernel
theorem witness_StepPerformsTurn :
    ({ State.reset with agenda := [.host (.read 0x004#12 4)] } : State).agenda = .host (.read 0x004#12 4) :: [] ∧
    ({ State.reset with agenda := [.hardReset, .unit] } : State).agenda = .hardReset :: [.unit] := by decide
theorem witness_IdleUnitHoldsState : State.reset.pending = none ∧ State.reset.agenda = [] ∧
    ({ State.reset with agenda := [.unit] } : State).agenda = .unit :: [] := by decide
/-- A pending command under a soft reset, and under a dropped operand write. -/
theorem witness_OperandsFixedWhilePending : (wr 0x008#12 0x1#32 State.reset).pending = some 0x1#32 ∧
    Transaction.softResets (.write 0x000#12 4 0x7#32) = true ∧
    Transaction.softResets (.write 0x11C#12 4 0x7#32) = false := by decide +kernel
/-- Each way to be refused: size, alignment, the ends of the unmapped ranges, and the read-only offsets. -/
theorem witness_BusErrorExactlyWhenIllegal :
    ([.read 0x000#12 8, .read 0x2FE#12 4, .read 0x014#12 4, .read 0x0FC#12 4, .write 0x340#12 4 0#32, .read 0xFFC#12 4,
      .write 0x010#12 4 0#32, .write 0x33C#12 4 0#32] : List Transaction).all (fun t => !t.wellFormed) = true ∧
    ([.read 0x010#12 4, .read 0x100#12 4, .read 0x33C#12 4, .write 0x2FC#12 4 0#32] : List Transaction).all
      (fun t => t.wellFormed) = true := by decide
theorem witness_CtrlReadAndWrite : (0xFFFFFFFE#32).toNat % 2 = 0 ∧ (0x7#32).toNat % 2 = 1 := by decide
theorem witness_AcknowledgedError : (0x4#32).toNat / 4 % 2 = 1 := by decide
theorem witness_CmdIssueOrReject : State.reset.pending = none ∧ (wr 0x008#12 0x1#32 State.reset).pending ≠ none := by
  decide +kernel
/-- The last operand word, 0x2FC, idle and busy. -/
theorem witness_OperandWordWrite : (0x2FC#12) = BitVec.ofNat 12 (0x100 + 0x20 * (15 : Reg).val + 4 * (7 : Fin 8).val) ∧
    State.reset.pending = none ∧ (wr 0x008#12 0x1#32 State.reset).pending ≠ none ∧ (0 : Fin 8) ≠ 7 := by decide +kernel
theorem witness_OperandWordReadAfterWrite : State.reset.pending = none ∧ locate 0x2FC#12 = some (.operand 15 7) ∧
    Offset.aligned 0x2FC#12 = true ∧ Offset.aligned 0x2F8#12 = true ∧ (0x2F8#12) ≠ 0x2FC#12 := by decide
theorem witness_BigEndianTransfer : (st [(4, 9)]).pending = none := by decide +kernel
/-- Two units that hold different secrets, one of them busy. -/
theorem witness_SoftResetErasesEverything :
    (0x1#32).toNat % 2 = 1 ∧ (st [(0, 5)]).agenda = (wr 0x008#12 0x6#32 (st [(1, 6)])).agenda ∧
      (st [(0, 5)]).replies = (wr 0x008#12 0x6#32 (st [(1, 6)])).replies := by decide +kernel
/-- INV of 0 pending with both enables set, the same state being busy for the last clause. -/
theorem witness_InterruptFollows :
    let s := wr 0x008#12 0x00000205#32 (wr 0x000#12 0x6#32 State.reset)
    s.pending = some 0x00000205#32 ∧ (∃ t, s.unitTurn = .next t ∧ t.err = true) ∧ s.doneie = true ∧ s.errie = true :=
  ⟨by decide +kernel, ⟨_, rfl, by decide +kernel⟩, by decide +kernel, by decide +kernel⟩
/-- Each way to a reset state. -/
theorem witness_ResetState : (∃ t, step { st [(3, 5)] with agenda := [.hardReset] } = .next t) ∧
    ({ st [(3, 5)] with agenda := [.hardReset] } : State).agenda = .hardReset :: [] ∧ (0x3#32).toNat % 2 = 1 :=
  ⟨⟨_, rfl⟩, rfl, by decide⟩
theorem witness_ClearingDoneLateLosesIt : (wr 0x008#12 0x00000205#32 State.reset).pending = some 0x00000205#32 := by
  decide +kernel
/-- An idle unit takes an issue, a busy one a STATUS write; and both premises of the conclusion can hold. -/
theorem witness_DisciplinedHost : State.reset.allows (.write 0x008#12 4 0x1#32) = true ∧
    (wr 0x008#12 0x1#32 State.reset).allows (.write 0x004#12 4 0x8#32) = true ∧
    ((run1 [] 0x00000205).hostTurn (.read 0x004#12 4)).err = true ∧
    ((next ((run1 [] 0x00000205).withFetchWord 32 0)).hostTurn (.read 0x004#12 4)).eovf = true := by decide +kernel
/-- An error recorded, and a unit's turn, a host's turn and the empty agenda after it. -/
theorem witness_ErrIsSticky :
    let s := run1 [] 0x00000205
    let s' : State := { s with agenda := [.host (.write 0x004#12 4 0xA#32)] }
    s.err = true ∧ (∃ t, step s = .next t) ∧ (∃ t, step s' = .next t) ∧ (∀ rest, s.agenda ≠ .hardReset :: rest) ∧
      (∀ rest, s'.agenda ≠ .hardReset :: rest) ∧
      Transaction.softResets (.write 0x004#12 4 0xA#32) = false ∧ Transaction.clearsErr (.write 0x004#12 4 0xA#32) = false :=
  ⟨by decide +kernel, ⟨_, rfl⟩, ⟨_, rfl⟩, fun _ h => List.cons_ne_nil _ _ h.symm,
    fun _ h => absurd (List.cons.inj h).1 (by decide), by decide, by decide⟩
theorem witness_ErrZeroMeansResultWritten :
    let s := wr 0x008#12 0x00010201#32 State.reset
    s.pending = some 0x00010201#32 ∧ (∃ t, s.unitTurn = .next t ∧ t.err = false) :=
  ⟨by decide +kernel, _, rfl, by decide +kernel⟩
theorem witness_HostNeverCompletes : ((run1 [] 0x00010201).hostTurn (.read 0x004#12 4)).done = true ∧
    Transaction.softResets (.write 0x000#12 4 0x6#32) = false := by decide +kernel
/-- The reset state, idle and so about to stutter, and a state with a command about to run. -/
theorem witness_StepKeepsInv : State.reset.Inv ∧ (∃ t, step State.reset = .next t) ∧
    (State.reset.withFetchWord 32 0x00000205).Inv ∧ (∃ t, step (State.reset.withFetchWord 32 0x00000205) = .next t) := by
  refine ⟨⟨⟨fun _ => ⟨rfl, rfl⟩, fun h => Bool.noConfusion h⟩, fun _ h => Option.noConfusion rfl (heq_of_eq h), ?_⟩, ⟨_, rfl⟩,
    ⟨⟨fun _ => ⟨rfl, rfl⟩, fun h => Bool.noConfusion h⟩, ?_, ?_⟩, ⟨_, rfl⟩⟩
  · exact ⟨fun h => Bool.noConfusion h.1, fun h => Bool.noConfusion h.1⟩
  · exact fun _ h => Option.some.inj h
  · exact ⟨fun h => Bool.noConfusion h.1, fun h => Bool.noConfusion h.1⟩

end Sys2Proof.Tests
end

/-! Proofs of the statements about the state (spec/10_state.md): what a reset of the unit leaves (R41), and the write of
STATUS that clears its sticky bits (R32). -/

namespace Sys2Proof.Laws

open Sys2Proof.Machine

/-! ## The host's accesses to the words at fixed offsets -/

/-- Bit k of a word, as the arithmetic of the statements writes it. -/
theorem getLsbD_eq_true_iff (w : Word) (k : Nat) : w.getLsbD k = true ↔ w.toNat / 2 ^ k % 2 = 1 := by
  rw [← BitVec.testBit_toNat, Nat.testBit_eq_decide_div_mod_eq, decide_eq_true_iff]

theorem busWrite_ctrl (s : State) (w : Word) : s.busWrite 0x000#12 4 w = (s.writeCtrl w, .ok) := rfl

theorem busWrite_status (s : State) (w : Word) : s.busWrite 0x004#12 4 w = (s.acknowledge w, .ok) := rfl

theorem busRead_ctrl (s : State) : s.busRead 0x000#12 4 = .data s.ctrlWord := rfl

theorem busRead_status (s : State) : s.busRead 0x004#12 4 = .data s.statusWord := rfl

theorem busRead_cmd (s : State) : s.busRead 0x008#12 4 = .data s.lastcmd := rfl

theorem busRead_errcode (s : State) : s.busRead 0x00C#12 4 = .data s.errcode := rfl

theorem busRead_errinfo (s : State) : s.busRead 0x010#12 4 = .data s.errinfo := rfl

/-- The word of a modulus in the window: MODP's (p) or MODN's (n) word j (R61). -/
def modulusWord : Modulus → Fin 8 → WindowWord
  | .p => .modp
  | .n => .modn

/-- Where the words of a modulus begin (R54). -/
def modulusOffset : Modulus → Nat
  | .p => 0x300
  | .n => 0x320

/-- MODP word j stands at 0x300 + 4·j and MODN word j at 0x320 + 4·j (R54). -/
theorem locate_modulusOffset (m : Modulus) (j : Fin 8) :
    locate (BitVec.ofNat 12 (modulusOffset m + 4 * j.val)) = some (modulusWord m j) := by
  cases m <;> revert j <;> decide

theorem aligned_modulusOffset (m : Modulus) (j : Fin 8) :
    Offset.aligned (BitVec.ofNat 12 (modulusOffset m + 4 * j.val)) = true := by
  cases m <;> revert j <;> decide

/-- Word j of a number that fits in an operand (R58). -/
theorem wordOf_ofNat {v : Nat} (hv : v < 2 ^ 256) (j : Fin 8) :
    wordOf (BitVec.ofNat 256 v) j = BitVec.ofNat 32 (v / 2 ^ (224 - 32 * j.val)) := by
  apply BitVec.eq_of_toNat_eq
  rw [wordOf_toNat, BitVec.toNat_ofNat, BitVec.toNat_ofNat, Nat.mod_eq_of_lt hv]

theorem readWindow_modulusWord (s : State) (m : Modulus) (j : Fin 8) :
    s.readWindow (modulusWord m j) = wordOf (BitVec.ofNat 256 (modulus m)) j := by
  cases m <;> rfl

/-- A read of MODP or MODN gives a word of p or n, whatever the state (R24, R61). -/
theorem busRead_modulusOffset (s : State) (m : Modulus) (j : Fin 8) :
    s.busRead (BitVec.ofNat 12 (modulusOffset m + 4 * j.val)) 4 =
      .data (BitVec.ofNat 32 (modulus m / 2 ^ (224 - 32 * j.val))) := by
  rw [busRead_located s (aligned_modulusOffset m j) (locate_modulusOffset m j), readWindow_modulusWord,
    wordOf_ofNat (modulus_lt m)]

/-! ## The reset of the unit -/

/-- The reset state is itself the result of a reset. -/
theorem unitReset_reset : State.reset.unitReset = State.reset := rfl

/-- A hard reset's turn (spec/70_reset_and_hazards.md R170). -/
theorem step_of_hardReset {s : State} {rest : List Turn} (h : s.agenda = .hardReset :: rest) :
    step s = .next ({ s with agenda := rest } : State).unitReset := by
  rw [step, h]; rfl

/-- A write of CTRL with bit 0 = 1 is the soft reset (R172). -/
theorem writeCtrl_of_odd (s : State) {w : Word} (h : w.toNat % 2 = 1) : s.writeCtrl w = s.unitReset := by
  have hbit : w.getLsbD 0 = true := (getLsbD_eq_true_iff w 0).2 (by rwa [pow_zero, Nat.div_one])
  rw [State.writeCtrl, if_pos hbit]

/-- CTRL reads 0 after a reset (R41). -/
theorem ctrlWord_unitReset (s : State) : s.unitReset.ctrlWord = 0#32 := by simp [State.ctrlWord]

/-- STATUS reads 0 after a reset: no sticky bit, no flag, not busy (R41). -/
theorem statusWord_unitReset (s : State) : s.unitReset.statusWord = 0#32 := by
  simp [State.statusWord, State.busy]

theorem irq_unitReset (s : State) : s.unitReset.irq = false := rfl

theorem getElem_unitReset_x (s : State) (i : Reg) : s.unitReset.x[i.val] = 0#256 := by simp

/-- Each of R41's three ways ends in a reset of the unit. -/
theorem exists_unitReset_of_reset_hard_or_soft {t : State}
    (h : t = State.reset ∨ (∃ s rest, s.agenda = .hardReset :: rest ∧ step s = .next t) ∨
      ∃ (s : State) (w : Word), w.toNat % 2 = 1 ∧ t = (s.busWrite 0x000#12 4 w).1) :
    ∃ s : State, t = s.unitReset := by
  rcases h with rfl | ⟨s, rest, hagenda, hstep⟩ | ⟨s, w, hodd, rfl⟩
  · exact ⟨State.reset, unitReset_reset.symm⟩
  · rw [step_of_hardReset hagenda] at hstep
    exact ⟨_, (Host.Outcome.next.inj hstep).symm⟩
  · exact ⟨s, by rw [busWrite_ctrl, writeCtrl_of_odd s hodd]⟩

/-- Settles O48: each of the three ways ends in `unitReset`, whose fields are R41's. -/
theorem resetState : Obligations.ResetState := by
  intro t h
  obtain ⟨s, rfl⟩ := exists_unitReset_of_reset_hard_or_soft h
  refine ⟨getElem_unitReset_x s, State.unitReset_pending s, irq_unitReset s, ?ctrl, ?status, ?cmd, ?errcode, ?errinfo,
    fun j => ⟨busRead_modulusOffset _ .p j, busRead_modulusOffset _ .n j⟩⟩
  case ctrl => rw [busRead_ctrl, ctrlWord_unitReset]
  case status => rw [busRead_status, statusWord_unitReset]
  case cmd => rw [busRead_cmd, State.unitReset_lastcmd, State.reset_lastcmd]
  case errcode => rw [busRead_errcode, State.unitReset_errcode, State.reset_errcode]
  case errinfo => rw [busRead_errinfo, State.unitReset_errinfo, State.reset_errinfo]

/-! ## The write of STATUS -/

/-- What a write of 1 to bit k does to a sticky bit: it clears it, and a write of 0 keeps it (R32). -/
theorem and_not_getLsbD (b : Bool) (w : Word) (k : Nat) :
    (b && !w.getLsbD k) = if w.toNat / 2 ^ k % 2 = 1 then false else b := by
  rw [← if_congr (getLsbD_eq_true_iff w k) rfl rfl]
  cases w.getLsbD k <;> simp

/-- Settles O38: the write is `acknowledge`, each of its bits read off by `and_not_getLsbD`. -/
theorem statusWriteOneToClear : Obligations.StatusWriteOneToClear := by
  intro s w
  refine ⟨s.acknowledge w, busWrite_status s w, rfl, ?done, ?err, ?errcode, ?errinfo, ?eovf⟩
  case done => exact and_not_getLsbD s.done w 1
  case err => exact and_not_getLsbD s.err w 2
  case errcode => exact if_congr (getLsbD_eq_true_iff w 2) rfl rfl
  case errinfo => exact if_congr (getLsbD_eq_true_iff w 2) rfl rfl
  case eovf => exact and_not_getLsbD s.eovf w 3

end Sys2Proof.Laws

/-! Proofs of the statements about the register window (spec/20_memory.md): which transactions are refused (R51 to R53), and
the accesses to CTRL (R55), STATUS (R56), CMD (R57), the operand words (R58, R59) and the modulus words (R61). -/

namespace Sys2Proof.Laws

open Sys2Proof.Machine Sys2Proof.Claims

/-! ## Refused transactions -/

/-- A refused transaction is answered BusError and has no other effect (R51 to R53). -/
theorem hostTurn_of_not_wellFormed (s : State) {t : Transaction} (h : t.wellFormed = false) :
    s.hostTurn t = s.answer .busError := by
  cases t with
  | read off size => rw [hostTurn_read, (busRead_eq_busError_iff s off size).2 h]
  | write off size v => rw [State.hostTurn, (busWrite_reply s off size v).1 h]

/-- Only a refused transaction is answered BusError: a well-formed read gives data, a well-formed write gives Ok. -/
theorem not_wellFormed_of_busError {s : State} {t : Transaction}
    (h : (s.hostTurn t).replies = .busError :: s.replies) : t.wellFormed = false := by
  cases t with
  | read off size => exact (busRead_eq_busError_iff s off size).1 (List.cons.inj h).1
  | write off size v =>
    have hanswer : (s.busWrite off size v).2 = .busError := (List.cons.inj h).1
    refine Bool.eq_false_iff.2 fun hlegal => ?_
    rw [(busWrite_reply s off size v).2 hlegal] at hanswer
    exact Reply.noConfusion hanswer

/-- Settles O34: the two lemmas above are its two directions, and the first gives the whole state. -/
theorem busErrorExactlyWhenIllegal : Obligations.BusErrorExactlyWhenIllegal := by
  intro s t
  refine ⟨⟨not_wellFormed_of_busError, fun h => ?_⟩, fun h => hostTurn_of_not_wellFormed s h⟩
  rw [hostTurn_of_not_wellFormed s h, State.answer_replies]

/-! ## Words as numbers -/

/-- Word j of an operand, as the arithmetic of the statements writes it (R58). -/
theorem wordOf_eq_ofNat (v : Operand) (j : Fin 8) :
    wordOf v j = BitVec.ofNat 32 (v.toNat / 2 ^ (224 - 32 * j.val)) :=
  BitVec.eq_of_toNat_eq (by rw [wordOf_toNat, BitVec.toNat_ofNat])

/-- Bit k of a word as the Boolean its arithmetic decides. -/
theorem getLsbD_eq_decide (w : Word) (k : Nat) : w.getLsbD k = decide (w.toNat / 2 ^ k % 2 = 1) :=
  Bool.eq_iff_iff.2 ((getLsbD_eq_true_iff w k).trans decide_eq_true_iff.symm)

/-- The number two concatenated fields make, which places each bit of STATUS and CTRL at its weight. -/
theorem toNat_append_eq_add {m n : Nat} (a : BitVec m) (b : BitVec n) :
    (a ++ b).toNat = 2 ^ n * a.toNat + b.toNat := by
  rw [BitVec.toNat_append, ← Nat.shiftLeft_add_eq_or_of_lt b.isLt, Nat.shiftLeft_eq, Nat.mul_comm]

/-! ## The operand words -/

/-- Every word of an operand register stands at a multiple of 4 (R54). -/
theorem aligned_operandOffset (i : Reg) (j : Fin 8) :
    Offset.aligned (BitVec.ofNat 12 (0x100 + 0x20 * i.val + 4 * j.val)) = true := by
  rw [Offset.aligned, BitVec.toNat_ofNat, beq_iff_eq]
  omega

/-- Settles O41: the offset is located at word j of x[i], which is R58's bits as a number. -/
theorem operandWordRead : Obligations.OperandWordRead := by
  intro s i j
  rw [busRead_located s (aligned_operandOffset i j) (locate_operand i j), State.readWindow, wordOf_eq_ofNat]

/-- A write at an aligned offset located at an operand word is that register's write, answered Ok (R59). -/
theorem busWrite_operand (s : State) {off : Offset} {i : Reg} {j : Fin 8} (w : Word)
    (ha : Offset.aligned off = true) (hl : locate off = some (.operand i j)) :
    s.busWrite off 4 w = (s.writeOperandWord off i j w, .ok) := by
  rw [State.busWrite, if_pos ((legalAccess_iff off 4).2 ⟨rfl, ha⟩), hl]

/-- BUSY is 0 exactly with nothing pending (R27). -/
theorem busy_eq_false_iff (s : State) : s.busy = false ↔ s.pending = none :=
  Option.isSome_eq_false_iff.trans Option.isNone_iff_eq_none

/-- `record` leaves R145's state. -/
theorem record_eq_recorded (e : ErrorCode) (info : Word) (s : State) :
    s.record e info = recorded ((errorCode e).setWidth 32) info s := by
  rw [State.record, recorded]
  cases s.err <;> rfl

theorem writeOperandWord_of_idle {s : State} (off : Offset) (i : Reg) (j : Fin 8) (w : Word) (h : s.pending = none) :
    s.writeOperandWord off i j w = { s with x := s.x.set i.val (setWordOf s.x[i.val] j w) } := by
  rw [State.writeOperandWord, (busy_eq_false_iff s).2 h, if_neg Bool.false_ne_true]

theorem writeOperandWord_of_busy {s : State} (off : Offset) (i : Reg) (j : Fin 8) (w : Word) (h : s.pending ≠ none) :
    s.writeOperandWord off i j w = recorded 5#32 (BitVec.ofNat 32 off.toNat) s := by
  have hbusy : s.busy = true := Bool.of_not_eq_false (mt (busy_eq_false_iff s).1 h)
  rw [State.writeOperandWord, if_pos hbusy, record_eq_recorded, BitVec.ofNat_toNat]
  rfl

/-- Settles O42: idle, the register's new value is `setWordOf`, whose words the laws of the operands give; busy, the write is
recorded. -/
theorem operandWordWrite : Obligations.OperandWordWrite := by
  rintro s i j w off rfl
  have hwrite := busWrite_operand s w (aligned_operandOffset i j) (locate_operand i j)
  refine ⟨fun hidle => ⟨setWordOf s.x[i.val] j w, ?written, ?word, fun k hk => ?others⟩, fun hbusy => ?dropped⟩
  case written => rw [hwrite, writeOperandWord_of_idle _ i j w hidle]
  case word => rw [← wordOf_toNat, wordOf_setWordOf]
  case others => rw [← wordOf_toNat, wordOf_setWordOf_ne _ w hk, wordOf_toNat]
  case dropped => rw [hwrite, writeOperandWord_of_busy _ i j w hbusy]

/-! ## CTRL -/

/-- A write of CTRL with bit 0 = 0 takes the two enables from bits 1 and 2 (R55). -/
theorem writeCtrl_of_even (s : State) {w : Word} (h : w.toNat % 2 = 0) :
    s.writeCtrl w = { s with doneie := w.getLsbD 1, errie := w.getLsbD 2 } := by
  have hbit : ¬ w.getLsbD 0 = true := by
    rw [getLsbD_eq_true_iff, pow_zero, Nat.div_one, h]
    exact Nat.zero_ne_one
  rw [State.writeCtrl, if_neg hbit]

/-- CTRL as a number: DONEIE at bit 1 and ERRIE at bit 2 (R55, R25). -/
theorem ctrlWord_eq_ofNat (s : State) :
    s.ctrlWord = BitVec.ofNat 32 (2 * s.doneie.toNat + 4 * s.errie.toNat) := by
  apply BitVec.eq_of_toNat_eq
  rw [State.ctrlWord, BitVec.toNat_setWidth, BitVec.toNat_ofNat]
  simp only [toNat_append_eq_add, BitVec.toNat_ofBool, BitVec.toNat_ofNat]
  omega

/-- Settles O36: both kinds of write by `writeCtrl`, none of whose cases asks what is pending, and the read by its bits. -/
theorem ctrlReadAndWrite : Obligations.CtrlReadAndWrite := by
  refine fun s w => ⟨fun heven => ?enables, fun hodd => ?softReset, ?read⟩
  case enables =>
    rw [busWrite_ctrl, writeCtrl_of_even s heven, getLsbD_eq_decide w 1, getLsbD_eq_decide w 2]
    rfl
  case softReset =>
    rw [busWrite_ctrl, writeCtrl_of_odd s hodd]
    rfl
  case read => rw [busRead_ctrl, ctrlWord_eq_ofNat]

/-! ## STATUS -/

/-- BUSY as a number (R27). -/
theorem busy_toNat (s : State) : s.busy.toNat = if s.pending = none then 0 else 1 := by
  rw [State.busy]
  cases s.pending <;> rfl

/-- STATUS as a number: each of its seven bits at R56's place, and 0 elsewhere. -/
theorem statusWord_eq_ofNat (s : State) :
    s.statusWord = BitVec.ofNat 32 (s.busy.toNat + 2 * s.done.toNat + 4 * s.err.toNat + 8 * s.eovf.toNat +
      256 * s.z.toNat + 512 * s.ge.toNat + 1024 * s.hi.toNat) := by
  apply BitVec.eq_of_toNat_eq
  rw [State.statusWord, BitVec.toNat_setWidth, BitVec.toNat_ofNat]
  simp only [toNat_append_eq_add, BitVec.toNat_ofBool, BitVec.toNat_ofNat]
  omega

/-- Settles O37: a read is an answer and nothing else, and the answer is STATUS as a number. -/
theorem statusReadLayout : Obligations.StatusReadLayout := by
  intro s
  rw [hostTurn_read, busRead_status, statusWord_eq_ofNat, busy_toNat]
  rfl

/-! ## CMD -/

theorem busWrite_cmd (s : State) (c : Word) : s.busWrite 0x008#12 4 c = (s.issue c, .ok) := rfl

theorem issue_of_idle {s : State} (c : Word) (h : s.pending = none) :
    s.issue c = { s with lastcmd := c, pending := some c } := by
  rw [State.issue, h]

theorem issue_of_busy {s : State} (c : Word) (h : s.pending ≠ none) : s.issue c = recorded 4#32 c s := by
  obtain ⟨c', hpending⟩ := Option.ne_none_iff_exists'.1 h
  rw [State.issue, hpending, record_eq_recorded]
  rfl

/-- Settles O40: a write of CMD is an issue attempt, accepted when idle and recorded when busy. -/
theorem cmdIssueOrReject : Obligations.CmdIssueOrReject := by
  refine fun s c => ⟨fun hidle => ?accepted, fun hbusy => ?rejected, busRead_cmd s⟩
  case accepted => rw [busWrite_cmd, issue_of_idle c hidle]
  case rejected => rw [busWrite_cmd, issue_of_busy c hbusy]

/-! ## The modulus words -/

/-- p as the spec defines it (spec/00_scope.md R9). -/
theorem modulus_p : modulus .p = 2 ^ 256 - 2 ^ 32 - 977 := by
  norm_num [modulus, Config.fieldPrime]

/-- Settles O43: both windows by `busRead_modulusOffset`, with the moduli's values. -/
theorem modulusWordRead : Obligations.ModulusWordRead := by
  intro s j
  refine ⟨?modp, busRead_modulusOffset s .n j⟩
  rw [← modulus_p]
  exact busRead_modulusOffset s .p j

end Sys2Proof.Laws

/-! Proofs of the statements about the encoding (spec/30_encoding.md): the assembled word as the OR of its shifted fields (R81). -/

namespace Sys2Proof.Laws

/-! ## The assembled word -/

/-- `toWord` packs from the most significant field down, R81 lists the fields from the least significant up. -/
theorem or_or_or_or_reverse (a b c d e : Word) : a ||| b ||| c ||| d ||| e = e ||| (d ||| c ||| b ||| a) := by
  ac_rfl

/-- Packing fields whose reserved bits are 0 is the OR of the others, each shifted to its place (R81). -/
theorem toWord_eq_or_of_reserved_zero (opc : BitVec 4) (m : BitVec 1) (rd ra rb : BitVec 4) :
    (C3R.mk opc m 0#3 rd ra rb 0#12).toWord = opc.setWidth 32 ||| ((m.setWidth 32 <<< 4) ||| (rd.setWidth 32 <<< 8) |||
      (ra.setWidth 32 <<< 12) ||| (rb.setWidth 32 <<< 16)) := by
  have hwide : (C3R.mk opc m 0#3 rd ra rb 0#12).toWord =
      (0#12 ++ rb ++ ra ++ rd ++ 0#3 ++ m ++ opc).setWidth 32 := (BitVec.setWidth_eq _).symm
  rw [hwide]
  simp only [↓BitVec.setWidth_append_eq_shiftLeft_setWidth_or, BitVec.shiftLeft_or_distrib, ← BitVec.shiftLeft_add,
    BitVec.setWidth_zero, BitVec.zero_shiftLeft, BitVec.zero_or, BitVec.or_zero, Nat.reduceAdd]
  exact or_or_or_or_reverse _ _ _ _ _

/-- A register field names its index, zero-extended (R83). -/
theorem setWidth_field (r : Reg) : (Reg.field r).setWidth 32 = BitVec.ofNat 32 r.val :=
  (BitVec.ofNat_toNat 32 (Reg.field r)).symm

/-- The word of a command that names three registers. -/
theorem toWord_three_registers (opc : BitVec 4) (m : Modulus) (rd ra rb : Reg) :
    (C3R.mk opc m.bit 0#3 (Reg.field rd) (Reg.field ra) (Reg.field rb) 0#12).toWord = opc.setWidth 32 |||
      ((m.bit.setWidth 32 <<< 4) ||| (BitVec.ofNat 32 rd.val <<< 8) ||| (BitVec.ofNat 32 ra.val <<< 12) |||
        (BitVec.ofNat 32 rb.val <<< 16)) := by
  simp only [toWord_eq_or_of_reserved_zero, setWidth_field]

/-- The word of INV or RED, whose unused RB contributes nothing (R85). -/
theorem toWord_two_registers (opc : BitVec 4) (m : Modulus) (rd ra : Reg) :
    (C3R.mk opc m.bit 0#3 (Reg.field rd) (Reg.field ra) 0#4 0#12).toWord = opc.setWidth 32 |||
      ((m.bit.setWidth 32 <<< 4) ||| (BitVec.ofNat 32 rd.val <<< 8) ||| (BitVec.ofNat 32 ra.val <<< 12)) := by
  simp only [toWord_eq_or_of_reserved_zero, setWidth_field, BitVec.setWidth_zero, BitVec.zero_shiftLeft, BitVec.or_zero]

/-- Each modulus stands beside its bit M, zero-extended (R82). -/
theorem snd_eq_bit_of_mem {mb : Modulus × Word} (h : mb ∈ [(Modulus.p, 0#32), (Modulus.n, 1#32)]) :
    mb.2 = mb.1.bit.setWidth 32 := by
  revert mb
  decide

/-- Settles O5: five commands name three registers and two name two, and each word's opcode field is R86's number. -/
theorem assembledWordIsOrOfFields : Obligations.AssembledWordIsOrOfFields := by
  intro rd ra rb mb hmb
  simp only [snd_eq_bit_of_mem hmb]
  exact ⟨toWord_three_registers 1#4 mb.1 rd ra rb, toWord_three_registers 2#4 mb.1 rd ra rb,
    toWord_three_registers 3#4 mb.1 rd ra rb, toWord_three_registers 4#4 mb.1 rd ra rb,
    toWord_two_registers 5#4 mb.1 rd ra, toWord_three_registers 6#4 mb.1 rd ra rb, toWord_two_registers 7#4 mb.1 rd ra⟩

end Sys2Proof.Laws

/-! Proofs of the statements about the arithmetic (spec/40_modarith.md): a result is a function of the opcode, the modulus and
the operand values (R115). -/

namespace Sys2Proof.Laws

open Sys2Proof.Machine Sys2Proof.Claims

/-! ## The completion of each command -/

theorem exec_add (m : Modulus) (rd ra rb : Reg) (s : State) :
    exec (.add m rd ra rb) s = .next (s.finish (encode (.add m rd ra rb)) (modulus m) rd [s.readReg ra, s.readReg rb] false
      (valueAdd (s.readReg ra) (s.readReg rb) (modulus m)) false) := rfl

theorem exec_sub (m : Modulus) (rd ra rb : Reg) (s : State) :
    exec (.sub m rd ra rb) s = .next (s.finish (encode (.sub m rd ra rb)) (modulus m) rd [s.readReg ra, s.readReg rb] false
      (valueSub (s.readReg ra) (s.readReg rb) (modulus m)) false) := rfl

theorem exec_mul (m : Modulus) (rd ra rb : Reg) (s : State) :
    exec (.mul m rd ra rb) s = .next (s.finish (encode (.mul m rd ra rb)) (modulus m) rd [s.readReg ra, s.readReg rb] false
      (valueMul (s.readReg ra) (s.readReg rb) (modulus m)) false) := rfl

theorem exec_div (m : Modulus) (rd ra rb : Reg) (s : State) :
    exec (.div m rd ra rb) s = .next (s.finish (encode (.div m rd ra rb)) (modulus m) rd [s.readReg ra, s.readReg rb]
      (s.readReg rb == 0) (valueDiv (s.readReg ra) (s.readReg rb) (modulus m)) false) := rfl

theorem exec_inv (m : Modulus) (rd ra : Reg) (s : State) :
    exec (.inv m rd ra) s = .next (s.finish (encode (.inv m rd ra)) (modulus m) rd [s.readReg ra] (s.readReg ra == 0)
      (valueInv (s.readReg ra) (modulus m)) false) := rfl

theorem exec_exp (m : Modulus) (rd ra rb : Reg) (s : State) :
    exec (.exp m rd ra rb) s = .next (s.finish (encode (.exp m rd ra rb)) (modulus m) rd [s.readReg ra] false
      (valueExp (s.readReg ra) (s.readReg rb) (modulus m)) false) := rfl

theorem exec_red (m : Modulus) (rd ra : Reg) (s : State) :
    exec (.red m rd ra) s = .next (s.finish (encode (.red m rd ra)) (modulus m) rd [] false
      (valueRed (s.readReg ra) (modulus m)) (geRed (s.readReg ra) (modulus m))) := rfl

/-- `completeError` leaves R106's state. -/
theorem completeError_eq_errored (e : ErrorCode) (c : Word) (s : State) :
    s.completeError e c = errored ((errorCode e).setWidth 32) c s := by
  rw [State.completeError, record_eq_recorded]
  rfl

/-- `completeResult` leaves R105's state: `flagZ` and `flagHi` are R104's Z and HI. -/
theorem completeResult_eq_completed (m : Nat) (rd : Reg) (r : Nat) (ge : Bool) (s : State) :
    s.completeResult m rd r ge = completed m rd r ge s := rfl

/-! ## What a result depends on -/

/-- Two commands whose completions are `finish` with the same checks and the same value end alike: only the destination, the
word and the state may differ, and none of them chooses among R103's outcomes. -/
theorem endAlike_of_exec_eq_finish {m : Nat} {i i' : Instr} {rd rd' : Reg} {s s' : State} {need : List Nat}
    {zeroDivisor : Bool} {r : Nat} {ge : Bool}
    (h : exec i s = .next (s.finish (encode i) m rd need zeroDivisor r ge))
    (h' : exec i' s' = .next (s'.finish (encode i') m rd' need zeroDivisor r ge)) (hr : r < m) :
    endAlike m i rd s i' rd' s' := by
  rw [endAlike, h, h']
  simp only [State.finish, completeError_eq_errored, completeResult_eq_completed]
  by_cases hreduced : allReduced m need = true
  · by_cases hzero : zeroDivisor = true
    · simp only [if_pos hreduced, if_pos hzero]
      exact .inr ⟨_, rfl, rfl⟩
    · simp only [if_pos hreduced, if_neg hzero]
      exact .inl ⟨r, ge, hr, rfl, rfl⟩
  · simp only [if_neg hreduced]
    exact .inr ⟨_, rfl, rfl⟩

/-- Settles O21: each command's checks and value read the state through its operands alone, so equal operands give both runs the
same `finish`. -/
theorem resultDependsOnOperandsOnly : Obligations.ResultDependsOnOperandsOnly := by
  intro m rd ra rb rd' ra' rb' s s' hxa
  have hpos : 0 < modulus m := Nat.zero_lt_of_lt (two_lt_modulus m)
  have ha : s'.readReg ra' = s.readReg ra := congrArg BitVec.toNat hxa.symm
  simp only [List.forall_mem_cons, List.not_mem_nil, false_imp_iff, implies_true, and_true]
  refine ⟨fun hxb => ?threeRegisters, ?inv, ?red⟩
  case threeRegisters =>
    have hb : s'.readReg rb' = s.readReg rb := congrArg BitVec.toNat hxb.symm
    refine ⟨?add, ?sub, ?mul, ?div, ?exp⟩
    case add => exact endAlike_of_exec_eq_finish (exec_add m rd ra rb s) (by rw [exec_add, ha, hb]) (Nat.mod_lt _ hpos)
    case sub => exact endAlike_of_exec_eq_finish (exec_sub m rd ra rb s) (by rw [exec_sub, ha, hb]) (valueSub_lt _ _ m)
    case mul => exact endAlike_of_exec_eq_finish (exec_mul m rd ra rb s) (by rw [exec_mul, ha, hb]) (Nat.mod_lt _ hpos)
    case div => exact endAlike_of_exec_eq_finish (exec_div m rd ra rb s) (by rw [exec_div, ha, hb]) (Nat.mod_lt _ hpos)
    case exp =>
      exact endAlike_of_exec_eq_finish (exec_exp m rd ra rb s) (by rw [exec_exp m rd' ra' rb', ha, hb])
        (powMod_lt _ _ (readReg_lt s rb) m)
  case inv => exact endAlike_of_exec_eq_finish (exec_inv m rd ra s) (by rw [exec_inv, ha]) (valueInv_lt _ m)
  case red => exact endAlike_of_exec_eq_finish (exec_red m rd ra s) (by rw [exec_red, ha]) (Nat.mod_lt _ hpos)

end Sys2Proof.Laws

/-! Proofs of the statements about the exceptions (spec/60_exceptions.md): what recording an error does (R145). -/

namespace Sys2Proof.Laws

open Sys2Proof.Machine Sys2Proof.Claims

/-! ## The record of an error -/

/-- The first error since ERR was last cleared is kept in full (R145). -/
theorem record_of_err_clear {s : State} (e : ErrorCode) (info : Word) (h : s.err = false) :
    s.record e info = { s with err := true, errcode := (errorCode e).setWidth 32, errinfo := info } := by
  rw [record_eq_recorded, recorded, if_pos h]

/-- A later error leaves the record alone and sets EOVF (R145, R146). -/
theorem record_of_err_set {s : State} (e : ErrorCode) (info : Word) (h : s.err = true) :
    s.record e info = { s with eovf := true } := by
  rw [record_eq_recorded, recorded, if_neg (by simp [h])]

/-- Settles O18: one clause for each value of ERR, the only field `record` asks. -/
theorem recordKeepsFirstError : Obligations.RecordKeepsFirstError :=
  fun e info _ => ⟨record_of_err_clear e info, record_of_err_set e info⟩

end Sys2Proof.Laws

/-! Proofs of the statements about decoding (spec/30_encoding.md sections 1 to 3): decode and encode are inverse to each other,
and the Illegal words are R88's. -/

namespace Sys2Proof.Laws

/-! ## What the decoder answers -/

/-- The command that fields stand for is missing exactly when the opcode is one of R88's. -/
theorem command_eq_none_iff (f : C3R) : f.command = none ↔ f.opcodeLegal = false := by
  have hlt := f.opc.isLt
  unfold C3R.command C3R.opcodeLegal
  generalize f.opc.toNat = k at hlt ⊢
  interval_cases k <;> simp

/-- R87's first test is R88's check of the reserved bits. -/
theorem reservedZero_eq_true_iff (f : C3R) : f.reservedZero = true ↔ ¬(f.rsv0 ≠ 0#3 ∨ f.rsv1 ≠ 0#12) := by
  simp [C3R.reservedZero]

/-- R87's last test is R88's check of the unused RB. -/
theorem unusedZero_eq_true_iff (f : C3R) : f.unusedZero = true ↔ ¬((f.opc = 5#4 ∨ f.opc = 7#4) ∧ f.rb ≠ 0#4) := by
  simp [C3R.unusedZero, imp_iff_not_or]

/-- A word decodes to a command exactly when its fields pass R88's checks and stand for that command. -/
theorem decode_eq_command_iff (c : Word) (i : Instr) :
    decode c = .command i ↔ (C3R.ofWord c).wellFormed = true ∧ (C3R.ofWord c).command = some i := by
  have hopcode : (C3R.ofWord c).command = some i → (C3R.ofWord c).opcodeLegal = true := fun h =>
    Bool.of_not_eq_false fun hbad => by simp [(command_eq_none_iff _).2 hbad] at h
  rw [C3R.wellFormed, Bool.and_eq_true, Bool.and_eq_true, reservedZero_eq_true_iff, unusedZero_eq_true_iff]
  unfold decode
  dsimp only
  split
  next hreserved => simp [hreserved]
  next hreserved =>
    split
    next hnone => simp [hnone]
    next k hsome =>
      split
      next hunused => simp [hunused]
      next hunused =>
        constructor
        · rintro ⟨⟩
          exact ⟨⟨⟨hopcode hsome, hreserved⟩, hunused⟩, hsome⟩
        · rintro ⟨-, h⟩
          rw [Option.some.inj (hsome.symm.trans h)]

/-- A word is Illegal exactly when its fields fail one of R88's checks. -/
theorem exists_decode_eq_illegal_iff (c : Word) :
    (∃ why, decode c = .illegal why) ↔ (C3R.ofWord c).wellFormed = false := by
  cases hd : decode c with
  | illegal why =>
    simp only [Decoded.illegal.injEq, exists_eq', true_iff]
    refine Bool.eq_false_iff.2 fun hwf => ?_
    obtain ⟨⟨hopcode, -⟩, -⟩ : ((C3R.ofWord c).opcodeLegal = true ∧ _) ∧ _ := by
      rwa [C3R.wellFormed, Bool.and_eq_true, Bool.and_eq_true] at hwf
    have hsome : (C3R.ofWord c).command ≠ none := fun h => by simp [(command_eq_none_iff _).1 h] at hopcode
    obtain ⟨i, hi⟩ := Option.ne_none_iff_exists'.1 hsome
    rw [(decode_eq_command_iff c i).2 ⟨hwf, hi⟩] at hd
    cases hd
  | command i => simp [((decode_eq_command_iff c i).1 hd).1]

/-! ## The fields of a command -/

/-- A command's fields pass R88's checks. -/
theorem wellFormed_fields (i : Instr) : i.fields.wellFormed = true := by
  cases i <;> rfl

/-- A command's fields stand for it: M and the register fields lose nothing (R82, R83). -/
theorem command_fields (i : Instr) : i.fields.command = some i := by
  cases i <;> simp [Instr.fields, C3R.command]

/-- Legal fields are those of the command they stand for: the opcode names its row, and every reserved or unused field is 0. -/
theorem fields_of_command_eq_some {f : C3R} {i : Instr} (hwf : f.wellFormed = true) (h : f.command = some i) :
    i.fields = f := by
  obtain ⟨opc, m, rsv0, rd, ra, rb, rsv1⟩ := f
  simp only [C3R.wellFormed, Bool.and_eq_true, reservedZero_eq_true_iff, unusedZero_eq_true_iff, not_or, not_and,
    not_not] at hwf
  obtain ⟨⟨-, rfl, rfl⟩, hunused⟩ := hwf
  unfold C3R.command at h
  dsimp only at h
  split at h
  case h_8 => cases h
  all_goals
    obtain rfl := Option.some.inj h
    next hopc =>
    replace hopc := congrArg (BitVec.ofNat 4) hopc
    rw [BitVec.ofNat_toNat, BitVec.setWidth_eq] at hopc
    subst hopc
    simp_all [Instr.fields]

/-- Settles O2: unpacking the encoded word gives the command's fields back, which are legal and stand for the command. -/
theorem decodeOfEncode : Obligations.DecodeOfEncode := by
  intro i
  have hfields : C3R.ofWord (encode i) = i.fields := ofWord_toWord i.fields
  rw [decode_eq_command_iff, hfields]
  exact ⟨wellFormed_fields i, command_fields i⟩

/-- Settles O3: the word's fields are the command's, and packing them gives the word back. -/
theorem encodeOfDecode : Obligations.EncodeOfDecode := by
  intro c i h
  obtain ⟨hwf, hcommand⟩ := (decode_eq_command_iff c i).1 h
  rw [encode, fields_of_command_eq_some hwf hcommand, toWord_ofWord]

/-- Settles O4: Illegal is the failure of R88's checks, each of them read off the word as a number. -/
theorem illegalWordsAreExactlyListed : Obligations.IllegalWordsAreExactlyListed := by
  intro c
  obtain ⟨hopc, hrsv0, hrb, hrsv1⟩ := ofWord_toNat c
  rw [exists_decode_eq_illegal_iff, ← hopc, ← hrsv0, ← hrb, ← hrsv1]
  generalize C3R.ofWord c = f
  have hlt := f.opc.isLt
  simp only [C3R.wellFormed, C3R.opcodeLegal, C3R.reservedZero, C3R.unusedZero, Bool.and_eq_false_iff, Bool.or_eq_false_iff,
    Bool.not_eq_false', Bool.or_eq_true, beq_iff_eq, beq_eq_false_iff_ne, decide_eq_false_iff_not, ne_eq,
    BitVec.toNat_eq, BitVec.toNat_ofNat]
  omega

/-- Settles O6: a pseudo-instruction assembles to the encoding of its expansion, which decodes to it. -/
theorem pseudoAssemblesToItsExpansion : Obligations.PseudoAssemblesToItsExpansion := by
  intro m vd va vb
  exact ⟨decodeOfEncode _, decodeOfEncode _, decodeOfEncode _, decodeOfEncode _, decodeOfEncode _, decodeOfEncode _⟩

/-- Settles O1: R87's decoder evaluates to the command on each of the eight words. -/
theorem sampleWordsDecode : Obligations.SampleWordsDecode := by
  unfold Obligations.SampleWordsDecode
  decide

end Sys2Proof.Laws

/-! Everything one turn can do, said once for each agent (spec/20_memory.md R70): a host's transaction, the unit's completion, a
hard reset. The statements about steps, hazards and the invariant below are read off these three. -/

namespace Sys2Proof.Laws

open Sys2Proof.Machine Sys2Proof.Claims

/-! ## A host's transaction -/

/-- `HostEffect s t u`: the transaction t may take the state s to u (spec/20_memory.md R50 to R59). A constructor carries what the
rules say about when its effect is possible. -/
inductive HostEffect (s : State) (t : Transaction) : State → Prop
  /-- A read, or a refused transaction (R51 to R53, R64). -/
  | answered (r : Reply) : HostEffect s t (s.answer r)
  /-- A write of CTRL with bit 0 = 1 (R55). -/
  | softReset (hsoft : t.softResets = true) : HostEffect s t (s.unitReset.answer .ok)
  /-- A write of CTRL with bit 0 = 0 (R55). -/
  | enables (doneie errie : Bool) : HostEffect s t (State.answer .ok { s with doneie := doneie, errie := errie })
  /-- A write of STATUS (R56). -/
  | acknowledged (w : Word) (hclears : t.clearsErr = w.getLsbD 2) : HostEffect s t ((s.acknowledge w).answer .ok)
  /-- A write of CMD with nothing pending (R57). -/
  | issued (c : Word) (hidle : s.pending = none) :
      HostEffect s t (State.answer .ok { s with lastcmd := c, pending := some c })
  /-- A write of CMD with a command pending (R57). -/
  | rejected (c : Word) (hhazard : s.allows t = false) : HostEffect s t ((s.record .cmdWhileBusy c).answer .ok)
  /-- A write of an operand word with nothing pending (R59). -/
  | loaded (i : Reg) (v : Operand) (hidle : s.pending = none) :
      HostEffect s t (State.answer .ok { s with x := s.x.set i.val v })
  /-- A write of an operand word with a command pending (R59). -/
  | dropped (off : Offset) (hhazard : s.allows t = false) (hlo : 0x100 ≤ off.toNat) (hhi : off.toNat ≤ 0x2FC)
      (hal : off.toNat % 4 = 0) : HostEffect s t ((s.record .writeWhileBusy (off.setWidth 32)).answer .ok)

theorem busy_of_pending_ne_none {s : State} (h : s.pending ≠ none) : s.busy = true :=
  Bool.of_not_eq_false (mt (busy_eq_false_iff s).1 h)

/-- An issue with a command pending is recorded (spec/60_exceptions.md R143). -/
theorem issue_of_some {s : State} {c : Word} (w : Word) (h : s.pending = some c) :
    s.issue w = s.record .cmdWhileBusy w := by
  rw [State.issue, h]

/-- An operand write with a command pending is recorded (spec/60_exceptions.md R144). -/
theorem writeOperandWord_of_some {s : State} {c : Word} (off : Offset) (i : Reg) (j : Fin 8) (w : Word)
    (h : s.pending = some c) : s.writeOperandWord off i j w = s.record .writeWhileBusy (off.setWidth 32) := by
  rw [State.writeOperandWord, if_pos (busy_of_pending_ne_none (Option.ne_none_iff_exists'.2 ⟨c, h⟩))]

/-- A legal write of CTRL is the soft reset or sets the two enables (R55). -/
theorem hostEffect_writeCtrl (s : State) {off : Offset} (w : Word) (hl : locate off = some .ctrl) :
    HostEffect s (.write off 4 w) ((s.writeCtrl w).answer .ok) := by
  rw [State.writeCtrl]
  split
  next hbit => exact .softReset (by simp [Transaction.softResets, locate_eq_ctrl hl, hbit])
  next => exact .enables _ _

/-- A legal write of STATUS acknowledges (R56). -/
theorem hostEffect_acknowledge (s : State) {off : Offset} (w : Word) (hl : locate off = some .status) :
    HostEffect s (.write off 4 w) ((s.acknowledge w).answer .ok) :=
  .acknowledged w (by simp [Transaction.clearsErr, locate_eq_status hl])

/-- A legal write of CMD is an issue or a hazard (R57, spec/70_reset_and_hazards.md R180). -/
theorem hostEffect_issue (s : State) {off : Offset} (c : Word) (hl : locate off = some .cmd) :
    HostEffect s (.write off 4 c) ((s.issue c).answer .ok) := by
  by_cases hp : s.pending = none
  · rw [issue_of_idle c hp]
    exact .issued c hp
  · obtain ⟨c', hc'⟩ := Option.ne_none_iff_exists'.1 hp
    rw [State.issue, hc']
    exact .rejected c (by simp [State.allows, busy_of_pending_ne_none hp, locate_eq_cmd hl])

/-- A legal write of an operand word stores it or is a hazard (R59, spec/70_reset_and_hazards.md R181). -/
theorem hostEffect_writeOperandWord (s : State) {off : Offset} {i : Reg} {j : Fin 8} (w : Word)
    (hal : off.toNat % 4 = 0) (hl : locate off = some (.operand i j)) :
    HostEffect s (.write off 4 w) ((s.writeOperandWord off i j w).answer .ok) := by
  obtain ⟨hlo, hhi⟩ := locate_eq_operand hl
  by_cases hp : s.pending = none
  · rw [writeOperandWord_of_idle off i j w hp]
    exact .loaded i _ hp
  · obtain ⟨c', hc'⟩ := Option.ne_none_iff_exists'.1 hp
    rw [writeOperandWord_of_some off i j w hc']
    exact .dropped off (by simp [State.allows, busy_of_pending_ne_none hp, hlo, hhi]) hlo (by omega) hal

/-- Everything a host's transaction can do. -/
theorem hostEffect_hostTurn (s : State) (t : Transaction) : HostEffect s t (s.hostTurn t) := by
  cases t with
  | read off size => exact .answered _
  | write off size v =>
    rw [State.hostTurn]
    obtain h | ⟨rfl, hl, h⟩ | ⟨rfl, hl, h⟩ | ⟨rfl, hl, h⟩ | ⟨i, j, rfl, hal, hl, h⟩ := busWrite_cases s off size v <;> rw [h]
    · exact .answered _
    · exact hostEffect_writeCtrl s v hl
    · exact hostEffect_acknowledge s v hl
    · exact hostEffect_issue s v hl
    · exact hostEffect_writeOperandWord s v hal hl

/-! ## The unit's turn -/

/-- `Completion s c u`: the completion of the word c may take the state s to u (spec/40_modarith.md R103). -/
inductive Completion (s : State) (c : Word) : State → Prop
  /-- An illegal word. -/
  | illegal {why : IllegalReason} (hd : decode c = .illegal why) : Completion s c (s.completeError .illegalCommand c)
  /-- A command that checks its operands, one of them not reduced. -/
  | notReduced {i : Instr} (hd : decode c = .command i) (hchecks : i.checks = true) :
      Completion s c (s.completeError .operandNotReduced c)
  /-- A command that inverts, of 0. -/
  | inversionOfZero {i : Instr} (hd : decode c = .command i) (hinverts : i.inverts = true) :
      Completion s c (s.completeError .inversionOfZero c)
  /-- A command that writes its residue r. -/
  | result {i : Instr} (r : Nat) (ge : Bool) (hd : decode c = .command i) (hr : r < modulus i.modulus)
      (hge : ge = true → r + modulus i.modulus < 2 ^ 256) : Completion s c (s.completeResult (modulus i.modulus) i.dest r ge)

/-- An idle unit's turn is a stutter (spec/60_exceptions.md R157). -/
theorem unitTurn_of_idle {s : State} (h : s.pending = none) : s.unitTurn = .next s := by
  rw [State.unitTurn, h]

/-- The turn of a unit with an illegal word pending (spec/60_exceptions.md R142). -/
theorem unitTurn_of_illegal {s : State} {c : Word} {why : IllegalReason} (hp : s.pending = some c)
    (hd : decode c = .illegal why) : s.unitTurn = .next (s.completeError .illegalCommand c) := by
  simp only [State.unitTurn, hp, State.complete, hd]

/-- The turn of a unit with a command pending (spec/40_modarith.md R103). -/
theorem unitTurn_of_command {s : State} {c : Word} {i : Instr} (hp : s.pending = some c)
    (hd : decode c = .command i) : s.unitTurn = exec i s := by
  simp only [State.unitTurn, hp, State.complete, hd]

/-- The unit's turn completes what is pending, in one of four ways. -/
theorem exists_completion_of_pending {s : State} {c : Word} (hp : s.pending = some c) :
    ∃ u, s.unitTurn = .next u ∧ Completion s c u := by
  cases hd : decode c with
  | illegal why => exact ⟨_, unitTurn_of_illegal hp hd, .illegal hd⟩
  | command i =>
    have hword : encode i = c := encodeOfDecode c i hd
    rw [unitTurn_of_command hp hd, ← hword]
    rw [← hword] at hd
    obtain ⟨hchecks, h⟩ | ⟨hinverts, h⟩ | ⟨r, ge, hr, hge, h⟩ := exec_cases i s
    · exact ⟨_, h, .notReduced hd hchecks⟩
    · exact ⟨_, h, .inversionOfZero hd hinverts⟩
    · exact ⟨_, h, .result r ge hd hr hge⟩

/-- Every completion leaves nothing pending and DONE = 1, and leaves alone CTRL, LASTCMD, what comes next and what the host has
got (R105, R106). -/
theorem Completion.frame {s u : State} {c : Word} (h : Completion s c u) :
    u.pending = none ∧ u.done = true ∧ u.doneie = s.doneie ∧ u.errie = s.errie ∧ u.lastcmd = s.lastcmd ∧
      u.agenda = s.agenda ∧ u.replies = s.replies := by
  cases h <;> simp

/-- A completion keeps a recorded error and its record (spec/60_exceptions.md R145). -/
theorem Completion.keepsErr {s u : State} {c : Word} (h : Completion s c u) (herr : s.err = true) :
    u.err = true ∧ u.errcode = s.errcode ∧ u.errinfo = s.errinfo := by
  cases h <;> simp [herr]

/-! ## A step -/

/-- A state whose agenda is empty has moved on to itself. -/
theorem movedOn_nil {s : State} (h : s.agenda = []) : movedOn [] s = s := by
  rw [← h]
  rfl

/-- With no turn left the unit completes what is pending (log 2). -/
theorem step_of_nil {s : State} (h : s.agenda = []) : step s = s.unitTurn := by
  rw [step, h]

/-- The unit's turn comes up (spec/20_memory.md R70). -/
theorem step_of_unit {s : State} {rest : List Turn} (h : s.agenda = .unit :: rest) :
    step s = (movedOn rest s).unitTurn := by
  rw [step, h]
  rfl

/-- A host's turn comes up (spec/20_memory.md R70). -/
theorem step_of_host {s : State} {t : Transaction} {rest : List Turn} (h : s.agenda = .host t :: rest) :
    step s = .next ((movedOn rest s).hostTurn t) := by
  rw [step, h]
  rfl

/-- `StepEffect s u`: a step may take the state s to u (spec/20_memory.md R70). -/
inductive StepEffect (s : State) : State → Prop
  /-- The unit had its turn, or no turn was left, with nothing pending (log 2, log 3). -/
  | stuttered (hidle : s.pending = none) : StepEffect s (movedOn s.agenda.tail s)
  /-- The unit had its turn, or no turn was left, with c pending (log 2). -/
  | completed {c : Word} {u : State} (hp : s.pending = some c) (h : Completion (movedOn s.agenda.tail s) c u) :
      StepEffect s u
  /-- A host had its turn. -/
  | transacted {t : Transaction} {rest : List Turn} {u : State} (hturn : s.agenda = .host t :: rest)
      (h : HostEffect (movedOn rest s) t u) : StepEffect s u
  /-- A hard reset (spec/70_reset_and_hazards.md R170). -/
  | hardReset {rest : List Turn} (hturn : s.agenda = .hardReset :: rest) : StepEffect s (movedOn rest s).unitReset

/-- What the unit's turn does to a state whose agenda has moved on. -/
theorem exists_stepEffect_of_unitTurn (s : State) :
    ∃ u, (movedOn s.agenda.tail s).unitTurn = .next u ∧ StepEffect s u := by
  cases hp : s.pending with
  | none => exact ⟨_, unitTurn_of_idle hp, .stuttered hp⟩
  | some c =>
    obtain ⟨u, hu, hc⟩ := exists_completion_of_pending (s := movedOn s.agenda.tail s) hp
    exact ⟨u, hu, .completed hp hc⟩

/-- Everything a step can do: it always has a next state (spec/60_exceptions.md R140), which is one of the four. -/
theorem exists_stepEffect (s : State) : ∃ u, step s = .next u ∧ StepEffect s u := by
  have hunit := exists_stepEffect_of_unitTurn s
  cases hturn : s.agenda with
  | nil =>
    rw [hturn, List.tail_nil, movedOn_nil hturn] at hunit
    rwa [step_of_nil hturn]
  | cons turn rest =>
    rw [hturn, List.tail_cons] at hunit
    cases turn with
    | host t => exact ⟨_, step_of_host hturn, .transacted hturn (hostEffect_hostTurn _ t)⟩
    | unit => rwa [step_of_unit hturn]
    | hardReset => exact ⟨_, step_of_hardReset hturn, .hardReset hturn⟩

theorem stepEffect_of_step {s t : State} (h : step s = .next t) : StepEffect s t := by
  obtain ⟨u, hu, heffect⟩ := exists_stepEffect s
  rwa [Host.Outcome.next.inj (h.symm.trans hu)]

theorem completion_of_unitTurn {s t : State} {c : Word} (hp : s.pending = some c) (h : s.unitTurn = .next t) :
    Completion s c t := by
  obtain ⟨u, hu, hc⟩ := exists_completion_of_pending hp
  rwa [Host.Outcome.next.inj (h.symm.trans hu)]

end Sys2Proof.Laws

/-! Proofs of the statements about the invariant: every step keeps it (spec/10_state.md sections 6 to 8). -/

namespace Sys2Proof.Laws

open Sys2Proof.Machine Sys2Proof.Claims

/-! ## The record -/

/-- The information words that can raise each error (spec/60_exceptions.md R141 to R144). -/
def CanRaise : ErrorCode → Word → Prop
  | .illegalCommand, info => ∃ why, decode info = .illegal why
  | .operandNotReduced, info => ∃ i, decode info = .command i ∧ i.checks = true
  | .inversionOfZero, info => ∃ i, decode info = .command i ∧ i.inverts = true
  | .cmdWhileBusy, _ => True
  | .writeWhileBusy, info => 0x100 ≤ info.toNat ∧ info.toNat ≤ 0x2FC ∧ info.toNat % 4 = 0

/-- Recording an error with a word that can raise it keeps the record consistent: the first is such a pair, a later one does not
touch the pair recorded (R145). -/
theorem recordConsistent_record {s : State} {e : ErrorCode} {info : Word} (h : s.RecordConsistent) (hraise : CanRaise e info) :
    (s.record e info).RecordConsistent := by
  cases herr : s.err with
  | true =>
    rw [record_of_err_set e info herr]
    exact h
  | false =>
    rw [record_of_err_clear e info herr]
    refine ⟨fun hclear => Bool.noConfusion hclear, fun _ => ?_⟩
    cases e with
    | illegalCommand => exact .inl ⟨rfl, hraise⟩
    | operandNotReduced => exact .inr (.inl ⟨rfl, hraise⟩)
    | inversionOfZero => exact .inr (.inr (.inl ⟨rfl, hraise⟩))
    | cmdWhileBusy => exact .inr (.inr (.inr (.inl rfl)))
    | writeWhileBusy => exact .inr (.inr (.inr (.inr ⟨rfl, hraise⟩)))

/-- A write of STATUS with bit 2 = 0 keeps ERR with its record (spec/10_state.md R32). -/
theorem acknowledge_keepsErr (s : State) {w : Word} (h : w.getLsbD 2 = false) :
    (s.acknowledge w).err = s.err ∧ (s.acknowledge w).errcode = s.errcode ∧ (s.acknowledge w).errinfo = s.errinfo := by
  rw [State.acknowledge_err, State.acknowledge_errcode, State.acknowledge_errinfo, h]
  exact ⟨Bool.and_true _, rfl, rfl⟩

/-- A write of STATUS with bit 2 = 1 clears ERR with its record (spec/10_state.md R32). -/
theorem acknowledge_clearsErr (s : State) {w : Word} (h : w.getLsbD 2 = true) :
    (s.acknowledge w).err = false ∧ (s.acknowledge w).errcode = 0#32 ∧ (s.acknowledge w).errinfo = 0#32 := by
  rw [State.acknowledge_err, State.acknowledge_errcode, State.acknowledge_errinfo, h]
  exact ⟨Bool.and_false _, rfl, rfl⟩

/-- A write of STATUS keeps the record consistent. -/
theorem recordConsistent_acknowledge {s : State} (w : Word) (h : s.RecordConsistent) :
    (s.acknowledge w).RecordConsistent := by
  cases hbit : w.getLsbD 2 with
  | false =>
    obtain ⟨herr, hcode, hinfo⟩ := acknowledge_keepsErr s hbit
    rwa [State.RecordConsistent, herr, hcode, hinfo]
  | true =>
    obtain ⟨herr, hcode, hinfo⟩ := acknowledge_clearsErr s hbit
    exact ⟨fun _ => ⟨hcode, hinfo⟩, fun hset => Bool.noConfusion (hset.symm.trans herr)⟩

/-! ## The flags -/

/-- Half a modulus above the modulus lies beyond 2^256, so no residue that an operand exceeds by the modulus is above
(m − 1)/2. -/
theorem two_pow_256_le (m : Modulus) : 2 ^ 256 ≤ modulus m + (modulus m - 1) / 2 := by
  cases m <;> decide

/-- The flags of a result are consistent. -/
theorem flagsConsistent_completeResult (s : State) (m : Modulus) (rd : Reg) {r : Nat} {ge : Bool}
    (hge : ge = true → r + modulus m < 2 ^ 256) : (s.completeResult (modulus m) rd r ge).FlagsConsistent := by
  have hhalf := two_pow_256_le m
  simp only [State.FlagsConsistent, State.completeResult_z, State.completeResult_hi, State.completeResult_ge, flagZ, flagHi,
    beq_iff_eq, decide_eq_true_eq]
  refine ⟨by omega, fun ⟨hset, hhi⟩ => ?_⟩
  have hbelow := hge hset
  omega

/-! ## The invariant -/

/-- The invariant says nothing of what comes next or of what the host has got. -/
theorem inv_movedOn {s : State} (rest : List Turn) (h : s.Inv) : (movedOn rest s).Inv :=
  ⟨h.record, h.pendingIsLast, h.flags⟩

theorem inv_answer {s : State} (r : Reply) (h : s.Inv) : (s.answer r).Inv :=
  ⟨h.record, h.pendingIsLast, h.flags⟩

/-- A reset of the unit establishes the invariant, whatever was before. -/
theorem inv_unitReset (s : State) : s.unitReset.Inv where
  record := by simp [State.RecordConsistent]
  pendingIsLast := by simp [State.PendingIsLast]
  flags := by simp [State.FlagsConsistent]

theorem inv_record {s : State} {e : ErrorCode} {info : Word} (h : s.Inv) (hraise : CanRaise e info) :
    (s.record e info).Inv where
  record := recordConsistent_record h.record hraise
  pendingIsLast := by simpa [State.PendingIsLast] using h.pendingIsLast
  flags := by simpa [State.FlagsConsistent] using h.flags

theorem inv_retire {s : State} (h : s.Inv) : s.retire.Inv where
  record := h.record
  pendingIsLast := by simp [State.PendingIsLast]
  flags := h.flags

/-- Every host's transaction keeps the invariant. -/
theorem HostEffect.keepsInv {s u : State} {t : Transaction} (heffect : HostEffect s t u) (h : s.Inv) : u.Inv := by
  cases heffect with
  | answered r => exact inv_answer r h
  | softReset => exact inv_answer _ (inv_unitReset s)
  | enables => exact inv_answer _ ⟨h.record, h.pendingIsLast, h.flags⟩
  | acknowledged w => exact inv_answer _ ⟨recordConsistent_acknowledge w h.record, h.pendingIsLast, h.flags⟩
  | issued c => exact inv_answer _ ⟨h.record, fun _ hc => Option.some.inj hc, h.flags⟩
  | rejected c => exact inv_answer _ (inv_record h trivial)
  | loaded => exact inv_answer _ ⟨h.record, h.pendingIsLast, h.flags⟩
  | dropped off _ hlo hhi hal =>
    have hoff : (off.setWidth 32).toNat = off.toNat := by rw [BitVec.toNat_setWidth]; omega
    refine inv_answer _ (inv_record h ?_)
    rw [CanRaise, hoff]
    exact ⟨hlo, hhi, hal⟩

/-- Every completion keeps the invariant. -/
theorem Completion.keepsInv {s u : State} {c : Word} (hcompletion : Completion s c u) (h : s.Inv) : u.Inv := by
  cases hcompletion with
  | illegal hd => exact inv_retire (inv_record h ⟨_, hd⟩)
  | notReduced hd hchecks => exact inv_retire (inv_record h ⟨_, hd, hchecks⟩)
  | inversionOfZero hd hinverts => exact inv_retire (inv_record h ⟨_, hd, hinverts⟩)
  | result r ge _ _ hge =>
    exact ⟨h.record, by simp [State.PendingIsLast], flagsConsistent_completeResult s _ _ hge⟩

/-- Settles O56: each effect of a step keeps the invariant, or is a reset, which establishes it. -/
theorem stepKeepsInv : Obligations.StepKeepsInv := by
  intro s t h hstep
  cases stepEffect_of_step hstep with
  | stuttered => exact inv_movedOn _ h
  | completed _ hc => exact hc.keepsInv (inv_movedOn _ h)
  | transacted _ hhost => exact hhost.keepsInv (inv_movedOn _ h)
  | hardReset => exact inv_unitReset _

/-- Settles O57: the reset state is the result of a reset of the unit. -/
theorem resetHasInv : Obligations.ResetHasInv :=
  inv_unitReset State.reset

end Sys2Proof.Laws

/-! Proofs of the statements about single steps (spec/20_memory.md section 5, spec/40_modarith.md R101). -/

namespace Sys2Proof.Laws

open Sys2Proof.Machine Sys2Proof.Claims

/-- Settles O28: the unit's turn runs the decoded command, on the state as it is or moved on. -/
theorem stepRunsDecodedCommand : Obligations.StepRunsDecodedCommand := by
  intro s c i rest hp hd
  exact ⟨fun h => (step_of_nil h).trans (unitTurn_of_command hp hd),
    fun h => (step_of_unit h).trans (unitTurn_of_command (s := movedOn rest s) hp hd)⟩

/-- Settles O17: the unit's turn records the illegal word and retires it. -/
theorem illegalWordRaisesAtCompletion : Obligations.IllegalWordRaisesAtCompletion := by
  intro s c why rest hp hd
  have hturn : ∀ u : State, u.pending = some c → u.unitTurn = .next (errored 1#32 c u) := fun u hu => by
    rw [unitTurn_of_illegal hu hd, completeError_eq_errored]
    rfl
  exact ⟨fun h => (step_of_nil h).trans (hturn s hp), fun h => (step_of_unit h).trans (hturn (movedOn rest s) hp)⟩

/-- Settles O29: the equations of a host's turn and of a hard reset. -/
theorem stepPerformsTurn : Obligations.StepPerformsTurn :=
  fun _ _ _ => ⟨step_of_host, step_of_hardReset⟩

/-- Settles O30: the turn of an idle unit is a stutter. -/
theorem idleUnitHoldsState : Obligations.IdleUnitHoldsState := by
  intro s rest hp
  exact ⟨fun h => (step_of_nil h).trans (unitTurn_of_idle hp),
    fun h => (step_of_unit h).trans (unitTurn_of_idle (s := movedOn rest s) hp)⟩

/-- Settles O31: every step has one of the four effects, so it has a next state. -/
theorem everyStepGoesOn : Obligations.EveryStepGoesOn := by
  intro s
  obtain ⟨u, hu, -⟩ := exists_stepEffect s
  exact ⟨u, hu⟩

/-! ## A run takes its agenda -/

theorem run_succ_of_step {k : Nat} {s t : State} (h : step s = .next t) :
    Host.Core.run core (k + 1) s = Host.Core.run core k t :=
  run_of_step core k h

/-- A transaction does not touch what comes next. -/
theorem HostEffect.agenda_eq {s u : State} {t : Transaction} (h : HostEffect s t u) : u.agenda = s.agenda := by
  cases h <;> simp

/-- A step takes one turn. -/
theorem StepEffect.agenda_eq {s u : State} (h : StepEffect s u) : u.agenda = s.agenda.tail := by
  cases h with
  | stuttered => rfl
  | completed _ hc =>
    obtain ⟨-, -, -, -, -, hagenda, -⟩ := hc.frame
    exact hagenda
  | transacted hturn hhost => rw [hhost.agenda_eq, hturn]; rfl
  | hardReset hturn => rw [hturn]; rfl

/-- With no turn left a step ends with nothing pending (log 2). -/
theorem StepEffect.pending_eq_none_of_nil {s u : State} (h : StepEffect s u) (hnil : s.agenda = []) :
    u.pending = none := by
  cases h with
  | stuttered hidle => exact hidle
  | completed _ hc => exact hc.frame.1
  | transacted hturn => simp [hnil] at hturn
  | hardReset hturn => simp [hnil] at hturn

/-- Settles O32, by induction on the number of turns left: each step takes one, and the last completes what is pending. -/
theorem runBecomesIdle : Obligations.RunBecomesIdle := by
  intro s
  induction hn : s.agenda.length generalizing s with
  | zero =>
    have hnil : s.agenda = [] := List.length_eq_zero_iff.1 hn
    obtain ⟨u, hu, heffect⟩ := exists_stepEffect s
    exact ⟨u, run_succ_of_step hu, heffect.pending_eq_none_of_nil hnil, by rw [heffect.agenda_eq, hnil]; rfl⟩
  | succ n ih =>
    obtain ⟨u, hu, heffect⟩ := exists_stepEffect s
    have hlength : u.agenda.length = n := by rw [heffect.agenda_eq, List.length_tail, hn]; rfl
    obtain ⟨t, hrun, hidle, hnil⟩ := ih u hlength
    exact ⟨t, (run_succ_of_step hu).trans hrun, hidle, hnil⟩

end Sys2Proof.Laws

/-! Proofs of the statements about hazards and sticky bits (spec/70_reset_and_hazards.md section 3). -/

namespace Sys2Proof.Laws

open Sys2Proof.Machine Sys2Proof.Claims

/-- Settles O33: with a command pending a transaction can neither issue nor load, and of its other effects only a soft reset
changes the pending word, an operand or a flag. -/
theorem operandsFixedWhilePending : Obligations.OperandsFixedWhilePending := by
  intro s c t hp
  have heffect := hostEffect_hostTurn s t
  generalize s.hostTurn t = u at heffect ⊢
  cases heffect with
  | softReset hsoft => exact .inl ⟨hsoft, rfl⟩
  | issued _ hidle => simp [hp] at hidle
  | loaded _ _ hidle => simp [hp] at hidle
  | answered => exact .inr ⟨hp, rfl, rfl, rfl, rfl, rfl⟩
  | enables => exact .inr ⟨hp, rfl, rfl, rfl, rfl, rfl⟩
  | acknowledged => exact .inr ⟨hp, rfl, rfl, rfl, rfl, rfl⟩
  | rejected => exact .inr (by simp [hp])
  | dropped => exact .inr (by simp [hp])

/-- Settles O51: the two effects that record an error are hazards, which the discipline forbids, and no other sets ERR or EOVF. -/
theorem disciplinedHostRaisesNothing : Obligations.DisciplinedHostRaisesNothing := by
  intro s t hallowed
  have heffect := hostEffect_hostTurn s t
  generalize s.hostTurn t = u at heffect ⊢
  cases heffect with
  | rejected _ hhazard => simp [hallowed] at hhazard
  | dropped _ hhazard => simp [hallowed] at hhazard
  | softReset => simp
  | acknowledged => simp +contextual
  | answered | enables | issued | loaded => exact ⟨id, id⟩

/-- Settles O55: of a transaction's effects only a soft reset changes a flag, and only it and an acknowledgement touch DONE,
which both can only clear. -/
theorem hostNeverCompletes : Obligations.HostNeverCompletes := by
  intro s t
  have heffect := hostEffect_hostTurn s t
  generalize s.hostTurn t = u at heffect ⊢
  cases heffect with
  | softReset hsoft => simp [hsoft]
  | acknowledged => simp +contextual
  | rejected | dropped => simp
  | answered | enables | issued | loaded => exact ⟨id, fun _ => ⟨rfl, rfl, rfl⟩⟩

/-- A transaction that neither resets the unit nor clears ERR keeps a recorded error and its record. -/
theorem HostEffect.keepsErr {s u : State} {t : Transaction} (h : HostEffect s t u) (hsoft : t.softResets = false)
    (hclears : t.clearsErr = false) (herr : s.err = true) :
    u.err = true ∧ u.errcode = s.errcode ∧ u.errinfo = s.errinfo := by
  cases h with
  | softReset hreset => simp [hsoft] at hreset
  | acknowledged w hbit =>
    obtain ⟨hkept, hrecord⟩ := acknowledge_keepsErr s (hbit.symm.trans hclears)
    exact ⟨hkept.trans herr, hrecord⟩
  | rejected | dropped => simp [herr]
  | answered | enables | issued | loaded => exact ⟨herr, rfl, rfl⟩

/-- Settles O53: a completion keeps the record, and so does every transaction but the two kinds excluded. -/
theorem errIsSticky : Obligations.ErrIsSticky := by
  intro s t hstep herr hnoReset hnoClear
  cases stepEffect_of_step hstep with
  | stuttered => exact ⟨herr, rfl, rfl⟩
  | completed _ hc => exact hc.keepsErr herr
  | transacted hturn hhost =>
    obtain ⟨hsoft, hclears⟩ := hnoClear _ _ hturn
    exact hhost.keepsErr hsoft hclears herr
  | hardReset hturn => exact absurd hturn (hnoReset _)

/-- The write of STATUS that clears DONE is an acknowledgement (R56). -/
theorem step_of_clearing_done {s : State} {rest : List Turn} (h : s.agenda = .host (.write 0x004#12 4 0x2#32) :: rest) :
    step s = .next (((movedOn rest s).acknowledge 0x2#32).answer .ok) :=
  step_of_host h

/-- The unit's turn, with a command pending. -/
theorem exists_completion_of_unit_turn {s : State} {c : Word} {rest : List Turn} (hp : s.pending = some c)
    (h : s.agenda = .unit :: rest) : ∃ u, step s = .next u ∧ Completion (movedOn rest s) c u := by
  rw [step_of_unit h]
  exact exists_completion_of_pending hp

/-- Settles O52: the completion sets DONE and the write clears it, so the later of the two decides. -/
theorem clearingDoneLateLosesIt : Obligations.ClearingDoneLateLosesIt := by
  intro s c rest hp
  constructor
  · have hclear := step_of_clearing_done
      (s := { s with agenda := .host (.write 0x004#12 4 0x2#32) :: .unit :: rest }) rfl
    obtain ⟨t, hcomplete, hc⟩ := exists_completion_of_unit_turn (s := ((movedOn (.unit :: rest) s).acknowledge 0x2#32).answer .ok)
      hp rfl
    obtain ⟨hidle, hdone, -⟩ := hc.frame
    exact ⟨t, (run_succ_of_step hclear).trans (run_succ_of_step hcomplete), hdone, hidle⟩
  · obtain ⟨u, hcomplete, hc⟩ := exists_completion_of_unit_turn
      (s := { s with agenda := .unit :: .host (.write 0x004#12 4 0x2#32) :: rest }) hp rfl
    obtain ⟨hidle, -, -, -, -, hagenda, -⟩ := hc.frame
    have hclear := step_of_clearing_done (s := u) hagenda
    exact ⟨_, (run_succ_of_step hcomplete).trans (run_succ_of_step hclear), Bool.and_false _, hidle⟩

end Sys2Proof.Laws

/-! Proofs of the statements about the interrupt output and the acknowledgement (spec/10_state.md R40, spec/60_exceptions.md
sections 3 and 4). -/

namespace Sys2Proof.Laws

open Sys2Proof.Machine Sys2Proof.Claims

/-- R40's formula. -/
theorem irq_eq_true_iff (s : State) :
    s.irq = true ↔ (s.done = true ∧ s.doneie = true) ∨ (s.err = true ∧ s.errie = true) := by
  simp [State.irq]

/-- Settles O50: irq by its formula; a completion sets DONE and keeps both enables; a hazard sets ERR and keeps DONE and the
enables. -/
theorem interruptFollowsCompletionAndError : Obligations.InterruptFollowsCompletionAndError := by
  refine ⟨irq_eq_true_iff, fun s t c hp hturn => ?completion, irq_unitReset, fun s c w i j off hp => ?hazard⟩
  case completion =>
    obtain ⟨-, hdone, hdoneie, herrie, -⟩ := (completion_of_unitTurn hp hturn).frame
    rw [irq_eq_true_iff, hdoneie, herrie]
    exact ⟨hdone, fun h => .inl ⟨hdone, h⟩, fun herr h => .inr ⟨herr, h⟩⟩
  case hazard =>
    rw [issue_of_some w hp, writeOperandWord_of_some off i j w hp, irq_eq_true_iff, irq_eq_true_iff]
    simp +contextual

/-- Settles O39: the acknowledgement leaves ERR = 0, so the next error is recorded in full. -/
theorem acknowledgedErrorIsRecordedAnew : Obligations.AcknowledgedErrorIsRecordedAnew := by
  intro s w e info hbit
  obtain ⟨hclear, -⟩ := acknowledge_clearsErr s ((getLsbD_eq_true_iff w 2).2 hbit)
  rw [busWrite_status, record_of_err_clear e info hclear]
  exact ⟨rfl, BitVec.toNat_setWidth_of_le (by decide), rfl⟩

/-- Settles O44: both words are located at their fixed offsets. -/
theorem errorRecordRead : Obligations.ErrorRecordRead :=
  fun s => ⟨busRead_errcode s, busRead_errinfo s⟩

end Sys2Proof.Laws

/-! Proofs of the statements about the commands' results and errors (spec/40_modarith.md sections 1 and 2): each command's
completion is `finish` with its checks and its value, and R103's outcomes are read off it once for all seven. -/

namespace Sys2Proof.Laws

open Sys2Proof.Machine Sys2Proof.Claims

/-! ## The checks and the value of a command -/

/-- The operands a command wants reduced (R107 to R113). -/
def mustReduce (s : State) : Instr → List Nat
  | .add _ _ ra rb | .sub _ _ ra rb | .mul _ _ ra rb | .div _ _ ra rb => [s.readReg ra, s.readReg rb]
  | .inv _ _ ra | .exp _ _ ra _ => [s.readReg ra]
  | .red _ _ _ => []

/-- A command that would invert 0 (R110, R111). -/
def invertsZero (s : State) : Instr → Bool
  | .div _ _ _ rb => s.readReg rb == 0
  | .inv _ _ ra => s.readReg ra == 0
  | .add _ _ _ _ | .sub _ _ _ _ | .mul _ _ _ _ | .exp _ _ _ _ | .red _ _ _ => false

/-- The value of a command as the model computes it. -/
def valueOf (s : State) : Instr → Nat
  | .add m _ ra rb => valueAdd (s.readReg ra) (s.readReg rb) (modulus m)
  | .sub m _ ra rb => valueSub (s.readReg ra) (s.readReg rb) (modulus m)
  | .mul m _ ra rb => valueMul (s.readReg ra) (s.readReg rb) (modulus m)
  | .div m _ ra rb => valueDiv (s.readReg ra) (s.readReg rb) (modulus m)
  | .inv m _ ra => valueInv (s.readReg ra) (modulus m)
  | .exp m _ ra rb => valueExp (s.readReg ra) (s.readReg rb) (modulus m)
  | .red m _ ra => valueRed (s.readReg ra) (modulus m)

/-- Every command's completion is `finish` with its checks and its value (R103). -/
theorem exec_eq_finish (i : Instr) (s : State) :
    exec i s = .next (s.finish (encode i) (modulus i.modulus) i.dest (mustReduce s i) (invertsZero s i) (valueOf s i)
      (geOf s i)) := by
  cases i with
  | add m rd ra rb => exact exec_add m rd ra rb s
  | sub m rd ra rb => exact exec_sub m rd ra rb s
  | mul m rd ra rb => exact exec_mul m rd ra rb s
  | div m rd ra rb => exact exec_div m rd ra rb s
  | inv m rd ra => exact exec_inv m rd ra s
  | exp m rd ra rb => exact exec_exp m rd ra rb s
  | red m rd ra => exact exec_red m rd ra s

theorem allReduced_eq_true_iff (m : Nat) (operands : List Nat) : allReduced m operands = true ↔ ∀ a ∈ operands, a < m := by
  simp [allReduced]

theorem allReduced_eq_false_iff (m : Nat) (operands : List Nat) : allReduced m operands = false ↔ ∃ a ∈ operands, m ≤ a := by
  simp [allReduced]

/-- R103's checks of a command all pass exactly when the claims say that it produces a result. -/
theorem producesResult_iff (s : State) (i : Instr) :
    producesResult s i ↔ allReduced (modulus i.modulus) (mustReduce s i) = true ∧ invertsZero s i = false := by
  cases i <;> simp [producesResult, allReduced_eq_true_iff, mustReduce, invertsZero, Instr.modulus, State.readReg, and_assoc]

/-- SUB's value, in one remainder of naturals (R108). -/
theorem valueSub_eq_mod {a b m : Nat} (ha : a < m) (hb : b < m) : valueSub a b m = (a + m - b) % m := by
  rw [valueSub_of_reduced ha hb]
  split
  next hle => rw [show a + m - b = a - b + m by omega, Nat.add_mod_right, Nat.mod_eq_of_lt (by omega)]
  next hlt => exact (Nat.mod_eq_of_lt (by omega)).symm

/-- The inverse is Fermat's power (R17, log 8). -/
theorem invMod_eq_pow_mod (m : Modulus) (a : Nat) : invMod a (modulus m) = a ^ (modulus m - 2) % modulus m :=
  powMod_eq_pow_mod _ _ _ (Nat.lt_of_le_of_lt (Nat.sub_le _ _) (modulus_lt m)) (Nat.lt_of_succ_lt (two_lt_modulus m))

/-- The value of a command that produces a result, in plain powers and remainders. -/
theorem valueOf_eq_resultOf {s : State} {i : Instr} (h : producesResult s i) : valueOf s i = resultOf s i := by
  cases i with
  | add | mul | red => rfl
  | sub m rd ra rb => exact valueSub_eq_mod h.1 h.2
  | div m rd ra rb => rw [valueOf, valueDiv, invMod_eq_pow_mod, Nat.mul_mod_mod]; rfl
  | inv m rd ra => rw [valueOf, valueInv, invMod_eq_pow_mod]; rfl
  | exp m rd ra rb =>
    rw [valueOf, valueExp, powMod_eq_pow_mod _ _ _ (readReg_lt s rb) (Nat.lt_of_succ_lt (two_lt_modulus m))]; rfl

/-! ## The outcomes of a command -/

/-- A command whose checks pass writes its result (R105). -/
theorem exec_of_producesResult {s : State} {i : Instr} (h : producesResult s i) :
    exec i s = .next (completed (modulus i.modulus) i.dest (resultOf s i) (geOf s i) s) := by
  obtain ⟨hreduced, hzero⟩ := (producesResult_iff s i).1 h
  rw [exec_eq_finish, State.finish, if_pos hreduced, hzero, if_neg Bool.false_ne_true, completeResult_eq_completed,
    valueOf_eq_resultOf h]

/-- An operand that must be reduced and is not (R103). -/
theorem exec_of_not_reduced {s : State} {i : Instr} (h : allReduced (modulus i.modulus) (mustReduce s i) = false) :
    exec i s = .next (errored 2#32 (encode i) s) := by
  rw [exec_eq_finish, State.finish, h, if_neg Bool.false_ne_true, completeError_eq_errored]
  rfl

/-- An inversion of 0, its operands reduced (R103). -/
theorem exec_of_invertsZero {s : State} {i : Instr} (h : allReduced (modulus i.modulus) (mustReduce s i) = true)
    (hzero : invertsZero s i = true) : exec i s = .next (errored 3#32 (encode i) s) := by
  rw [exec_eq_finish, State.finish, if_pos h, if_pos hzero, completeError_eq_errored]
  rfl

/-- A command one of whose checks fails completes with an error. -/
theorem exists_errored_of_not_producesResult {s : State} {i : Instr} (h : ¬ producesResult s i) :
    ∃ code, exec i s = .next (errored code (encode i) s) := by
  rw [producesResult_iff, not_and, Bool.not_eq_false] at h
  cases hreduced : allReduced (modulus i.modulus) (mustReduce s i) with
  | false => exact ⟨2#32, exec_of_not_reduced hreduced⟩
  | true => exact ⟨3#32, exec_of_invertsZero hreduced (h hreduced)⟩

/-- An errored completion has ERR = 1 (R145). -/
theorem errored_err (code info : Word) (s : State) : (errored code info s).err = true := by
  cases h : s.err <;> simp [errored, recorded, h]

/-! ## Results -/

/-- Settles O8: ADD's checks are that both operands are reduced. -/
theorem addCompletesWithSum : Obligations.AddCompletesWithSum :=
  fun m rd ra rb _ ha hb => exec_of_producesResult (i := .add m rd ra rb) ⟨ha, hb⟩

/-- Settles O9: SUB's remainder is one of R108's two differences. -/
theorem subCompletesWithDifference : Obligations.SubCompletesWithDifference := by
  intro m rd ra rb s ha hb
  rw [← valueSub_of_reduced ha hb, valueSub_eq_mod ha hb]
  exact exec_of_producesResult (i := .sub m rd ra rb) ⟨ha, hb⟩

/-- Settles O10: MUL's checks are that both operands are reduced. -/
theorem mulCompletesWithProduct : Obligations.MulCompletesWithProduct :=
  fun m rd ra rb _ ha hb => exec_of_producesResult (i := .mul m rd ra rb) ⟨ha, hb⟩

/-- Multiplying the quotient by the divisor gives the dividend back (R110). -/
theorem valueDiv_mul_mod (m : Modulus) {a b : Nat} (ha : a < modulus m) (hb : b < modulus m) (h0 : b ≠ 0) :
    valueDiv a b (modulus m) * b % modulus m = a := by
  obtain ⟨-, -, hinv⟩ := invMod_spec m (Nat.pos_of_ne_zero h0) hb
  rw [valueDiv, Nat.mod_mul_mod, mul_assoc, mul_comm (invMod b _), Nat.mul_mod, hinv, mul_one, Nat.mod_mod,
    Nat.mod_eq_of_lt ha]

/-- Settles O11: the quotient is the dividend times the divisor's inverse, and a product with the divisor determines it. -/
theorem divCompletesWithQuotient : Obligations.DivCompletesWithQuotient := by
  intro m rd ra rb s ha hb h0
  have hpos : 0 < modulus m := Nat.zero_lt_of_lt ha
  have hlt : valueDiv s.x[ra.val].toNat s.x[rb.val].toNat (modulus m) < modulus m := Nat.mod_lt _ hpos
  have hquot := valueDiv_mul_mod m ha hb h0
  have hresult : producesResult s (.div m rd ra rb) := ⟨ha, hb, h0⟩
  refine ⟨_, hlt, hquot, fun y' hy' h => ?unique, ?completion⟩
  case unique => exact eq_of_mul_mod_eq m (Nat.pos_of_ne_zero h0) hb hy' hlt (h.trans hquot.symm)
  case completion =>
    rw [exec_of_producesResult hresult, ← valueOf_eq_resultOf hresult]
    rfl

/-- Settles O12: Fermat's power is an inverse, and a product with the operand determines it. -/
theorem invCompletesWithInverse : Obligations.InvCompletesWithInverse := by
  intro m rd ra s ha h0
  obtain ⟨hlo, hlt, hinv⟩ := invMod_spec m (Nat.pos_of_ne_zero h0) ha
  have hresult : producesResult s (.inv m rd ra) := ⟨ha, h0⟩
  refine ⟨_, hlo, Nat.le_sub_one_of_lt hlt, hinv, fun y' hy' hy'm h => ?unique, ?completion, ?zero⟩
  case unique =>
    rw [mul_comm] at h hinv
    exact eq_of_mul_mod_eq m (Nat.pos_of_ne_zero h0) ha (by omega) hlt (h.trans hinv.symm)
  case completion =>
    rw [exec_of_producesResult hresult, ← valueOf_eq_resultOf hresult]
    rfl
  case zero => exact decide_eq_false (Nat.ne_of_gt hlo)

/-- Settles O13: EXP's only check is that its base is reduced. -/
theorem expCompletesWithPower : Obligations.ExpCompletesWithPower :=
  fun m rd ra rb _ ha => exec_of_producesResult (i := .exp m rd ra rb) ha

/-- Settles O14: RED has no check, and one subtraction suffices for its residue. -/
theorem redCompletesWithResidue : Obligations.RedCompletesWithResidue := by
  intro m rd ra s
  have hlt : s.x[ra.val].toNat < 2 * modulus m := (readReg_lt s ra).trans (lt_two_mul_modulus m)
  rw [← valueRed_of_lt_two_mul hlt]
  exact exec_of_producesResult (i := .red m rd ra) trivial

/-! ## Errors -/

/-- Settles O15: the first check of each command fails. -/
theorem unreducedOperandRaises : Obligations.UnreducedOperandRaises := by
  intro m rd ra rb s
  simp only [List.forall_mem_cons, List.not_mem_nil, false_imp_iff, implies_true, and_true]
  refine ⟨fun h => ?pair, fun h => ?single⟩
  case pair =>
    have hbad : allReduced (modulus m) [s.readReg ra, s.readReg rb] = false :=
      (allReduced_eq_false_iff _ _).2 (by simpa [State.readReg] using h)
    exact ⟨exec_of_not_reduced (i := .add m rd ra rb) hbad, exec_of_not_reduced (i := .sub m rd ra rb) hbad,
      exec_of_not_reduced (i := .mul m rd ra rb) hbad, exec_of_not_reduced (i := .div m rd ra rb) hbad⟩
  case single =>
    have hbad : allReduced (modulus m) [s.readReg ra] = false :=
      (allReduced_eq_false_iff _ _).2 (by simpa [State.readReg] using h)
    exact ⟨exec_of_not_reduced (i := .inv m rd ra) hbad, exec_of_not_reduced (i := .exp m rd ra rb) hbad⟩

/-- Settles O16: 0 is reduced, so the first check passes and the second fails. -/
theorem inversionOfZeroRaises : Obligations.InversionOfZeroRaises := by
  intro m rd ra rb s
  have hpos : 0 < modulus m := Nat.zero_lt_of_lt (two_lt_modulus m)
  refine ⟨fun ha hb => ?div, fun ha => ?inv⟩
  case div =>
    have hreduced : allReduced (modulus m) [s.readReg ra, s.readReg rb] = true :=
      (allReduced_eq_true_iff _ _).2 (by simp [State.readReg, ha, hb, hpos])
    exact exec_of_invertsZero (i := .div m rd ra rb) hreduced (beq_iff_eq.2 hb)
  case inv =>
    have hreduced : allReduced (modulus m) [s.readReg ra] = true :=
      (allReduced_eq_true_iff _ _).2 (by simp [State.readReg, ha, hpos])
    exact exec_of_invertsZero (i := .inv m rd ra) hreduced (beq_iff_eq.2 ha)

/-- Settles O54: an illegal word and a failed check leave ERR = 1, so the pending word is a command whose checks pass. -/
theorem errZeroMeansResultWritten : Obligations.ErrZeroMeansResultWritten := by
  intro s t c hp hturn herr
  cases hd : decode c with
  | illegal why =>
    rw [unitTurn_of_illegal hp hd] at hturn
    obtain rfl := Host.Outcome.next.inj hturn
    simp at herr
  | command i =>
    rw [unitTurn_of_command hp hd] at hturn
    by_cases hresult : producesResult s i
    · exact ⟨i, rfl, hresult, hturn, Host.Outcome.next.inj (hturn.symm.trans (exec_of_producesResult hresult))⟩
    · obtain ⟨code, herrored⟩ := exists_errored_of_not_producesResult hresult
      obtain rfl := Host.Outcome.next.inj (hturn.symm.trans herrored)
      rw [errored_err] at herr
      cases herr

/-! ## What a command leaves unchanged -/

/-- Settles O19: an errored completion changes no register and no flag, the other writes a residue and no record. -/
theorem commandWritesResidueOrNothing : Obligations.CommandWritesResidueOrNothing := by
  intro i s
  obtain ⟨-, h⟩ | ⟨-, h⟩ | ⟨r, ge, hr, -, h⟩ := exec_cases i s
  · exact ⟨_, h, .inr (by simp +contextual)⟩
  · exact ⟨_, h, .inr (by simp +contextual)⟩
  · exact ⟨_, h, .inl ⟨r, hr, rfl, rfl, rfl, rfl, rfl⟩⟩

/-- A read of a mapped offset depends on the state through the word there alone. -/
theorem busRead_congr {s t : State} {off : Offset} {l : WindowWord} (hl : locate off = some l)
    (h : t.readWindow l = s.readWindow l) : t.busRead off 4 = s.busRead off 4 := by
  simp only [State.busRead, hl, h]

/-- Every word of the window but STATUS, ERRCODE and ERRINFO reads the same from states that agree on CTRL, LASTCMD and the
registers but one, unless it is a word of that one. -/
theorem readWindow_congr {s t : State} {rd : Reg} {l : WindowWord} (hx : ∀ k : Reg, k ≠ rd → t.x[k.val] = s.x[k.val])
    (hdoneie : t.doneie = s.doneie) (herrie : t.errie = s.errie) (hlastcmd : t.lastcmd = s.lastcmd)
    (hstatus : l ≠ .status) (hcode : l ≠ .errcode) (hinfo : l ≠ .errinfo) (hdest : ∀ j, l ≠ .operand rd j) :
    t.readWindow l = s.readWindow l := by
  cases l with
  | ctrl => simp only [State.readWindow, State.ctrlWord, hdoneie, herrie]
  | cmd => exact hlastcmd
  | operand i j =>
    have hne : i ≠ rd := fun h => hdest j (h ▸ rfl)
    simp only [State.readWindow, hx i hne]
  | modp | modn => rfl
  | status => exact absurd rfl hstatus
  | errcode => exact absurd rfl hcode
  | errinfo => exact absurd rfl hinfo

/-- The registers but the destination after a command. -/
theorem exec_x_of_ne_dest {i : Instr} {s t : State} (h : exec i s = .next t) {k : Reg} (hk : k ≠ i.dest) :
    t.x[k.val] = s.x[k.val] := by
  have hne : i.dest.val ≠ k.val := fun he => hk (Fin.ext he.symm)
  obtain ⟨-, hexec⟩ | ⟨-, hexec⟩ | ⟨r, ge, -, -, hexec⟩ := exec_cases i s
  all_goals
    obtain rfl := Host.Outcome.next.inj (h.symm.trans hexec)
    simp [hne]

/-- A command's run is the completion of its own word. -/
theorem completion_of_exec {i : Instr} {s t : State} (h : exec i s = .next t) : Completion s (encode i) t := by
  have hd := decodeOfEncode i
  obtain ⟨hchecks, hexec⟩ | ⟨hinverts, hexec⟩ | ⟨r, ge, hr, hge, hexec⟩ := exec_cases i s
  all_goals obtain rfl := Host.Outcome.next.inj (h.symm.trans hexec)
  · exact .notReduced hd hchecks
  · exact .inversionOfZero hd hinverts
  · exact .result r ge hd hr hge

/-- A completion that ends with ERR = 0 raised nothing: the record is as before. -/
theorem Completion.record_eq_of_err_clear {s u : State} {c : Word} (h : Completion s c u) (herr : u.err = false) :
    s.err = false ∧ u.eovf = s.eovf ∧ u.errcode = s.errcode ∧ u.errinfo = s.errinfo := by
  cases h with
  | illegal | notReduced | inversionOfZero => simp at herr
  | result => exact ⟨herr, rfl, rfl, rfl⟩

/-- Settles O20: a command is a completion of its own word, which has its frame, and the window's words are read through the
registers that keep their values. -/
theorem commandFrame : Obligations.CommandFrame := by
  intro i s t hexec
  have hc := completion_of_exec hexec
  have hx : ∀ k : Reg, k ≠ i.dest → t.x[k.val] = s.x[k.val] := fun k hk => exec_x_of_ne_dest hexec hk
  obtain ⟨hidle, hdone, hdoneie, herrie, hlastcmd, hagenda, hreplies⟩ := hc.frame
  refine ⟨hx, hdoneie, herrie, hlastcmd, hagenda, hreplies, hidle, hdone, hc.keepsErr, hc.record_eq_of_err_clear, ?window⟩
  case window =>
    intro off l hl hstatus hcode hinfo hdest
    exact busRead_congr hl (readWindow_congr hx hdoneie herrie hlastcmd hstatus hcode hinfo hdest)

end Sys2Proof.Laws

/-! Proofs of the statements about the values and the client's tests on them (spec/00_scope.md R9, R10, spec/40_modarith.md
sections 3 and 4). -/

namespace Sys2Proof.Laws

open Sys2Proof.Machine Sys2Proof.Claims

/-! ## The moduli and the values -/

/-- Settles O7: the values by arithmetic on the digits, the primality by the certificates. -/
theorem moduliAreTheTwoPrimes : Obligations.ModuliAreTheTwoPrimes := by
  refine ⟨modulus_p, rfl, rfl, prime_modulus .p, prime_modulus .n, ?_⟩
  decide

/-- SUB adds the operand's SUB from 0 (R116). -/
theorem valueSub_eq_valueAdd_valueSub_zero {a b m : Nat} (ha : a < m) (hb : b < m) :
    valueSub a b m = valueAdd a (valueSub 0 b m) m := by
  rw [valueSub_eq_mod ha hb, valueSub_eq_mod (Nat.zero_lt_of_lt hb) hb, valueAdd, Nat.zero_add, Nat.add_mod_mod,
    Nat.add_sub_assoc hb.le]

/-- EXP turns sums of exponents into products (R116). -/
theorem valueExp_add (m : Modulus) (a : Nat) {e1 e2 : Nat} (h : e1 + e2 < 2 ^ 256) :
    valueExp a (e1 + e2) (modulus m) =
      valueMul (valueExp a e1 (modulus m)) (valueExp a e2 (modulus m)) (modulus m) := by
  have hm : 1 < modulus m := Nat.lt_of_succ_lt (two_lt_modulus m)
  simp only [valueExp, valueMul]
  rw [powMod_eq_pow_mod a _ _ h hm, powMod_eq_pow_mod a e1 _ (by omega) hm, powMod_eq_pow_mod a e2 _ (by omega) hm,
    pow_add, Nat.mul_mod]

/-- Settles O23: the identities of remainders, of SUB by `valueSub_eq_valueAdd_valueSub_zero`, of EXP by `valueExp_add`; DIV and
INV are computed as R116 says. -/
theorem valueIdentities : Obligations.ValueIdentities := by
  intro m a b c e1 e2 ha hb hc
  refine ⟨?addComm, ?addAssoc, ?mulComm, ?mulAssoc, ?distrib, valueSub_eq_valueAdd_valueSub_zero ha hb, fun _ => rfl,
    fun _ => rfl, valueExp_add m a, Nat.mod_eq_of_lt ha⟩
  case addComm => rw [valueAdd, valueAdd, add_comm]
  case addAssoc => simp only [valueAdd, Nat.mod_add_mod, Nat.add_mod_mod, add_assoc]
  case mulComm => rw [valueMul, valueMul, mul_comm]
  case mulAssoc => simp only [valueMul, Nat.mod_mul_mod, Nat.mul_mod_mod, mul_assoc]
  case distrib => simp only [valueMul, valueAdd, Nat.mul_mod_mod, Nat.mod_add_mod, Nat.add_mod_mod, mul_add]

/-! ## Reading a result -/

/-- A result that fits is what its destination then holds. -/
theorem completed_x_dest (m : Nat) (rd : Reg) {r : Nat} (ge : Bool) (s : State) (hr : r < 2 ^ 256) :
    (completed m rd r ge s).x[rd.val].toNat = r := by
  simpa [completed] using hr

theorem completed_x_of_ne (m : Nat) {rd k : Reg} (r : Nat) (ge : Bool) (s : State) (h : k ≠ rd) :
    (completed m rd r ge s).x[k.val] = s.x[k.val] := by
  have hne : rd.val ≠ k.val := fun he => h (Fin.ext he.symm)
  simp [completed, hne]

/-- Every command's value is a residue of its modulus. -/
theorem resultOf_lt (s : State) (i : Instr) : resultOf s i < modulus i.modulus := by
  have hpos : 0 < modulus i.modulus := Nat.zero_lt_of_lt (two_lt_modulus _)
  cases i <;> exact Nat.mod_lt _ hpos

theorem resultOf_lt_two_pow (s : State) (i : Instr) : resultOf s i < 2 ^ 256 :=
  (resultOf_lt s i).trans (modulus_lt _)

/-- Two completions with one result agree on it and on the flags, whatever the states before. -/
theorem completed_agree (m : Nat) (rd : Reg) (r : Nat) (ge : Bool) (s s' : State) :
    (completed m rd r ge s).x[rd.val] = (completed m rd r ge s').x[rd.val] ∧
      (completed m rd r ge s).z = (completed m rd r ge s').z ∧ (completed m rd r ge s).ge = (completed m rd r ge s').ge ∧
      (completed m rd r ge s).hi = (completed m rd r ge s').hi := by
  simp [completed]

/-- Settles O22: INV leaves the divisor's inverse in the spare register, and MUL's product by it is DIV's value. -/
theorem divAgreesWithInvThenMul : Obligations.DivAgreesWithInvThenMul := by
  intro m rd rt ra rb s ha hb h0 hspare
  have hinv : exec (.inv m rt rb) s = .next (completed (modulus m) rt (resultOf s (.inv m rt rb)) false s) :=
    exec_of_producesResult (i := .inv m rt rb) ⟨hb, h0⟩
  have hdiv : exec (.div m rd ra rb) s = .next (completed (modulus m) rd (resultOf s (.div m rd ra rb)) false s) :=
    exec_of_producesResult (i := .div m rd ra rb) ⟨ha, hb, h0⟩
  have hinverse := completed_x_dest (modulus m) rt false s (resultOf_lt_two_pow s (.inv m rt rb))
  have hdividend := completed_x_of_ne (modulus m) (resultOf s (.inv m rt rb)) false s hspare.symm
  have hinverse_lt := resultOf_lt s (.inv m rt rb)
  generalize completed (modulus m) rt (resultOf s (.inv m rt rb)) false s = t at hinv hinverse hdividend
  have hmul := mulCompletesWithProduct m rd ra rt t (by rwa [hdividend]) (by rwa [hinverse])
  have hvalue : t.x[ra.val].toNat * t.x[rt.val].toNat % modulus m = resultOf s (.div m rd ra rb) := by
    rw [hdividend, hinverse]
    exact Nat.mul_mod_mod _ _ _
  rw [hvalue] at hmul
  exact ⟨t, _, _, hinv, hmul, hdiv, completed_agree _ _ _ _ t s⟩

/-! ## The client's tests -/

/-- Settles O24: RED's residue is 0 below its modulus only for the operand 0. -/
theorem redFlagsTellRange : Obligations.RedFlagsTellRange := by
  intro m rd ra s
  refine ⟨_, redCompletesWithResidue m rd ra s, ?_⟩
  simp only [completed, decide_eq_false_iff_not]
  split <;> omega

theorem curveOrder_odd : modulus .n % 2 = 1 := by
  decide

/-- The curve order is odd, so twice a residue is above it exactly when the residue is above (n − 1)/2. -/
theorem two_mul_gt_curveOrder_iff (r : Nat) : 2 * r > modulus .n ↔ r > (modulus .n - 1) / 2 := by
  have hodd := curveOrder_odd
  omega

/-- SUB from 0 of a nonzero residue is the modulus less the residue. -/
theorem exec_sub_from_zero (m : Modulus) (rd ra rb : Reg) {s : State} (ha : s.x[ra.val].toNat = 0)
    (hb : s.x[rb.val].toNat < modulus m) (h0 : 0 < s.x[rb.val].toNat) :
    exec (.sub m rd ra rb) s = .next (completed (modulus m) rd (modulus m - s.x[rb.val].toNat) false s) := by
  have hlt : s.x[ra.val].toNat < modulus m := by omega
  rw [subCompletesWithDifference m rd ra rb s hlt hb, ha, if_neg (by omega), Nat.zero_add]

/-- Settles O25: HI compares the result with (n − 1)/2, and n less a result above it is not above it, n being odd. -/
theorem hiTellsLowS : Obligations.HiTellsLowS := by
  intro i s vz hn hresult
  have hexec := exec_of_producesResult hresult
  have hlt := resultOf_lt s i
  have hr := completed_x_dest (modulus i.modulus) i.dest (geOf s i) s (resultOf_lt_two_pow s i)
  have hhi : (completed (modulus i.modulus) i.dest (resultOf s i) (geOf s i) s).hi = true ↔
      resultOf s i > (modulus i.modulus - 1) / 2 := decide_eq_true_iff
  generalize completed (modulus i.modulus) i.dest (resultOf s i) (geOf s i) s = t at hexec hr hhi
  rw [hn] at hlt hhi
  rw [← hr] at hlt hhi
  refine ⟨t, hexec, hhi.trans (two_mul_gt_curveOrder_iff _).symm, fun hset hzero => ?mended⟩
  case mended =>
    have habove := hhi.1 hset
    have hodd := curveOrder_odd
    have hn256 := modulus_lt .n
    have hsub := exec_sub_from_zero .n i.dest vz i.dest hzero hlt (by omega)
    refine ⟨_, hsub, completed_x_dest _ _ _ _ (by omega), decide_eq_false ?_⟩
    omega

/-- Settles O26: RED's GE is its test, and ADD of the residue is 0 exactly when the sum is 0 modulo n. -/
theorem childKeyTests : Obligations.ChildKeyTests := by
  intro vd va vp vc s hne hp
  have hred : exec (.red .n vd va) s = .next (completed (modulus .n) vd (s.x[va.val].toNat % modulus .n)
      (decide (s.x[va.val].toNat ≥ modulus .n)) s) := exec_of_producesResult (i := .red .n vd va) trivial
  have hlt : s.x[va.val].toNat % modulus .n < modulus .n := resultOf_lt s (.red .n vd va)
  have hge : (completed (modulus .n) vd (s.x[va.val].toNat % modulus .n) (decide (s.x[va.val].toNat ≥ modulus .n)) s).ge =
      true ↔ modulus .n ≤ s.x[va.val].toNat := decide_eq_true_iff
  have hil := completed_x_dest (modulus .n) vd (decide (s.x[va.val].toNat ≥ modulus .n)) s (hlt.trans (modulus_lt .n))
  have hparent := completed_x_of_ne (modulus .n) (s.x[va.val].toNat % modulus .n)
    (decide (s.x[va.val].toNat ≥ modulus .n)) s hne.symm
  generalize completed (modulus .n) vd (s.x[va.val].toNat % modulus .n) _ s = t at hred hge hil hparent
  refine ⟨t, _, hred, hge, addCompletesWithSum .n vc vd vp t (by rwa [hil]) (by rwa [hparent]), ?zero⟩
  case zero =>
    rw [hil, hparent, Nat.mod_add_mod]
    exact decide_eq_true_iff

/-- A sum of residues is 0 modulo m exactly when the one is the negation of the other. -/
theorem add_mod_eq_zero_iff {a b m : Nat} (ha : a < m) (hb : b < m) : (a + b) % m = 0 ↔ a = (m - b) % m := by
  rcases Nat.eq_zero_or_pos b with rfl | hpos
  · rw [Nat.add_zero, Nat.mod_eq_of_lt ha, Nat.sub_zero, Nat.mod_self]
  · rw [Nat.mod_eq_of_lt (Nat.sub_lt (by omega) hpos)]
    rcases Nat.lt_or_ge (a + b) m with h | h
    · rw [Nat.mod_eq_of_lt h]; omega
    · rw [Nat.mod_eq_sub_mod h, Nat.mod_eq_of_lt (by omega)]; omega

/-- Settles O27: Z says that the sum, or the difference, is 0. -/
theorem pointTests : Obligations.PointTests := by
  intro vt va vb s ha hb
  refine ⟨_, _, addCompletesWithSum .p vt va vb s ha hb, subCompletesWithDifference .p vt va vb s ha hb, ?add, ?sub⟩
  case add =>
    rw [← add_mod_eq_zero_iff ha hb]
    exact decide_eq_true_iff
  case sub =>
    simp only [completed, decide_eq_true_eq]
    split <;> omega

end Sys2Proof.Laws

/-! Proofs of the statements about the window as a whole (spec/20_memory.md R60 to R67) and about the soft reset
(spec/70_reset_and_hazards.md R172). -/

namespace Sys2Proof.Laws

open Sys2Proof.Machine Sys2Proof.Claims

/-! ## Addresses and reads -/

/-- The host address of an offset lies in the window. -/
theorem windowOffset_busAddress (off : Offset) : windowOffset (busAddress off) = some off := by
  have hlt := off.isLt
  rw [windowOffset, busAddress, if_pos (by omega), Nat.add_sub_cancel_left, BitVec.ofNat_toNat, BitVec.setWidth_eq]

/-- An address names no offset exactly outside the 4 KiB window. -/
theorem windowOffset_eq_none_iff (addr : Nat) :
    windowOffset addr = none ↔ (addr < Config.base ∨ Config.base + 0x1000 ≤ addr) := by
  rw [windowOffset, ite_eq_right_iff]
  simp only [reduceCtorEq, imp_false]
  omega

/-- Settles O47: BASE is a multiple of 0x1000, so an offset is the low 12 bits of its address. -/
theorem windowDecodesLowBits : Obligations.WindowDecodesLowBits := by
  have hbase : Config.base % 0x1000 = 0 := Nat.mul_mod_right _ _
  refine ⟨hbase, fun off => ⟨windowOffset_busAddress off, ?low⟩, windowOffset_eq_none_iff⟩
  case low =>
    have hlt := off.isLt
    rw [busAddress]
    omega

/-- A read does not depend on what the host has got. -/
theorem busRead_answer (s : State) (r : Reply) (off : Offset) (size : Nat) :
    (s.answer r).busRead off size = s.busRead off size := rfl

/-- Settles O35: a read is an answer and nothing else, and the answer does not change the next read. -/
theorem readsMayBeRepeated : Obligations.ReadsMayBeRepeated := by
  intro s off size
  refine ⟨s.busRead off size, ?_, rfl⟩
  rw [hostTurn_read, hostTurn_read, busRead_answer]
  rfl

/-! ## One operand word -/

/-- An aligned offset located at an operand word is that word's (R54). -/
theorem toNat_of_locate_eq_operand {off : Offset} {i : Reg} {j : Fin 8} (ha : Offset.aligned off = true)
    (h : locate off = some (.operand i j)) : off.toNat = 0x100 + 0x20 * i.val + 4 * j.val := by
  have hrange := locate_eq_operand h
  rw [Offset.aligned, beq_iff_eq] at ha
  unfold locate at h
  dsimp only at h
  repeat rw [if_neg (by omega)] at h
  rw [if_pos (by omega), Option.some.injEq, WindowWord.operand.injEq] at h
  obtain ⟨rfl, rfl⟩ := h
  simp only [Fin.val_ofNat]
  omega

/-- Writing a word again changes nothing more (R64). -/
theorem setWordOf_setWordOf (v : Operand) (j : Fin 8) (w : Word) :
    setWordOf (setWordOf v j w) j w = setWordOf v j w := by
  refine eq_of_wordOf_eq fun k => ?_
  by_cases hk : k = j
  · rw [hk, wordOf_setWordOf, wordOf_setWordOf]
  · rw [wordOf_setWordOf_ne _ _ hk]

/-- The state after a write of an operand word with nothing pending (R59). -/
theorem busWrite_operand_of_idle {s : State} {off : Offset} {i : Reg} {j : Fin 8} (w : Word) (hidle : s.pending = none)
    (ha : Offset.aligned off = true) (hl : locate off = some (.operand i j)) :
    (s.busWrite off 4 w).1 = { s with x := s.x.set i.val (setWordOf s.x[i.val] j w) } := by
  rw [busWrite_operand s w ha hl, writeOperandWord_of_idle off i j w hidle]

/-- A new word j of x[i] changes no other word of the window. -/
theorem readWindow_set_word (s : State) {i : Reg} {j : Fin 8} (w : Word) {l : WindowWord} (hne : l ≠ .operand i j) :
    State.readWindow { s with x := s.x.set i.val (setWordOf s.x[i.val] j w) } l = s.readWindow l := by
  cases l with
  | operand i' k =>
    by_cases hi : i' = i
    · subst hi
      have hk : k ≠ j := fun h => hne (h ▸ rfl)
      simp [State.readWindow, wordOf_setWordOf_ne _ _ hk]
    · have hval : i.val ≠ i'.val := fun h => hi (Fin.ext h.symm)
      simp [State.readWindow, hval]
  | ctrl | status | cmd | errcode | errinfo | modp | modn => rfl

/-- An unmapped offset reads the same from all states: BusError (R52). -/
theorem busRead_of_locate_eq_none (s : State) {off : Offset} (size : Nat) (hl : locate off = none) :
    s.busRead off size = .busError := by
  rw [State.busRead, hl, ite_self]

/-- Settles O45: the written word reads back, no other offset is located at it, and the second write sets the word it finds. -/
theorem operandWordReadAfterWrite : Obligations.OperandWordReadAfterWrite := by
  intro s i j w off off' hidle hl ha ha'
  rw [busWrite_operand_of_idle w hidle ha hl]
  refine ⟨?readsBack, fun hne => ?others, ?again⟩
  case readsBack =>
    rw [busRead_located _ ha hl]
    simp [State.readWindow]
  case others =>
    cases hl' : locate off' with
    | none => rw [busRead_of_locate_eq_none _ _ hl', busRead_of_locate_eq_none _ _ hl']
    | some l =>
      refine busRead_congr hl' (readWindow_set_word s w fun h => hne ?_)
      rw [h] at hl'
      exact BitVec.eq_of_toNat_eq
        ((toNat_of_locate_eq_operand ha' hl').trans (toNat_of_locate_eq_operand ha hl).symm)
  case again =>
    rw [busWrite_operand_of_idle w (by exact hidle) ha hl]
    simp [setWordOf_setWordOf]

/-! ## A whole operand -/

/-- An operand some of whose words have been written, in the order of a list. -/
def loadWords (word : Fin 8 → Word) (js : List (Fin 8)) (v : Operand) : Operand :=
  js.foldl (fun v j => setWordOf v j (word j)) v

/-- The words written are the new ones, the others the old ones. -/
theorem wordOf_loadWords (word : Fin 8 → Word) (js : List (Fin 8)) (v : Operand) (k : Fin 8) :
    wordOf (loadWords word js v) k = if k ∈ js then word k else wordOf v k := by
  induction js generalizing v with
  | nil => rfl
  | cons j js ih =>
    rw [loadWords, List.foldl_cons, ← loadWords, ih]
    by_cases hk : k = j
    · subst hk
      simp
    · simp [hk, wordOf_setWordOf_ne]

/-- Writing words of x[i] with nothing pending is `loadWords` on that register and nothing else (R59). -/
theorem foldl_busWrite_eq_loadWords {s : State} (i : Reg) (word : Fin 8 → Word) (js : List (Fin 8))
    (hidle : s.pending = none) :
    js.foldl (fun (u : State) (j : Fin 8) =>
        (u.busWrite (BitVec.ofNat 12 (0x100 + 0x20 * i.val + 4 * j.val)) 4 (word j)).1) s =
      { s with x := s.x.set i.val (loadWords word js s.x[i.val]) } := by
  induction js generalizing s with
  | nil => simp [loadWords]
  | cons j js ih =>
    rw [List.foldl_cons, busWrite_operand_of_idle (word j) hidle (aligned_operandOffset i j) (locate_operand i j),
      ih (by exact hidle)]
    simp [loadWords]

/-- A number modulo b^n from its n lowest digits in base b, the most significant first. -/
theorem foldl_digits_eq_mod (b n v : Nat) :
    (List.finRange n).foldl (fun acc (k : Fin n) => acc * b + v / b ^ (n - 1 - k.val) % b) 0 = v % b ^ n := by
  induction n generalizing v with
  | zero => simp [Nat.mod_one]
  | succ n ih =>
    have hdigit : ∀ k : Fin n, v / b ^ (n + 1 - 1 - k.val) = v / b / b ^ (n - 1 - k.val) := fun k => by
      rw [Nat.div_div_eq_div_mul, ← pow_succ']
      congr 2
      omega
    rw [List.finRange_succ_last, List.foldl_append, List.foldl_map]
    simp only [Fin.val_castSucc, hdigit, ih, List.foldl_cons, List.foldl_nil, Fin.val_last]
    rw [pow_succ', Nat.mod_mul]
    simp [mul_comm, add_comm]

/-- Byte 4j + r of an operand, counted from the most significant, is byte r of its word j (R60). -/
theorem byte_of_wordOf_eq {v : Operand} {j : Fin 8} {b : Fin 4 → BitVec 8} (h : wordOf v j = b 0 ++ b 1 ++ b 2 ++ b 3)
    (r : Fin 4) : (b r).toNat = v.toNat / 256 ^ (31 - (4 * j.val + r.val)) % 256 := by
  have hpow : 256 ^ (31 - (4 * j.val + r.val)) = 2 ^ (224 - 32 * j.val) * 256 ^ (3 - r.val) := by
    rw [show (256 : Nat) = 2 ^ 8 from rfl, ← pow_mul, ← pow_mul, ← pow_add]
    congr 1
    omega
  have hword := congrArg BitVec.toNat h
  rw [wordOf_toNat] at hword
  simp only [toNat_append_eq_add] at hword
  rw [hpow, ← Nat.div_div_eq_div_mul]
  generalize v.toNat / 2 ^ (224 - 32 * j.val) = q at hword ⊢
  have h0 := (b 0).isLt
  have h1 := (b 1).isLt
  have h2 := (b 2).isLt
  have h3 := (b 3).isLt
  match r with
  | 0 => simp; omega
  | 1 => simp; omega
  | 2 => simp; omega
  | 3 => simp; omega

/-- Settles O46: the eight writes load the string's words, whose bytes are the operand's digits in base 256. -/
theorem bigEndianTransfer : Obligations.BigEndianTransfer := by
  intro s i B hidle off word t
  have ht : t = { s with x := s.x.set i.val (loadWords word (List.finRange 8) s.x[i.val]) } :=
    foldl_busWrite_eq_loadWords i word (List.finRange 8) hidle
  have hwords : ∀ j, wordOf t.x[i.val] j = word j := fun j => by
    simp [ht, wordOf_loadWords]
  refine ⟨?integer, fun j => ?readBack⟩
  case integer =>
    have hbytes : ∀ k : Fin 32, (B k).toNat = t.x[i.val].toNat / 256 ^ (32 - 1 - k.val) % 256 := fun k => by
      have hk : 4 * (k.val / 4) + k.val % 4 = k.val := Nat.div_add_mod _ _
      have hbyte := byte_of_wordOf_eq (b := fun r => B ⟨4 * (k.val / 4) + r.val, by omega⟩)
        (hwords ⟨k.val / 4, by omega⟩) ⟨k.val % 4, by omega⟩
      simpa only [hk] using hbyte
    simp only [hbytes, foldl_digits_eq_mod]
    exact (Nat.mod_eq_of_lt (t.x[i.val]).isLt).symm
  case readBack =>
    rw [busRead_located t (aligned_operandOffset i j) (locate_operand i j), State.readWindow, hwords]

/-! ## The soft reset -/

/-- A soft reset takes the host's turn and resets the unit, whatever was before (R172). -/
theorem hostTurn_softReset (s : State) {w : Word} (h : w.toNat % 2 = 1) :
    s.hostTurn (.write 0x000#12 4 w) = s.unitReset.answer .ok := by
  rw [State.hostTurn, busWrite_ctrl, writeCtrl_of_odd s h]

/-- A reset of the unit leaves nothing of the state but what comes next and what the host has got (R171). -/
theorem unitReset_eq_of_agenda_replies {s s' : State} (hagenda : s.agenda = s'.agenda) (hreplies : s.replies = s'.replies) :
    s.unitReset = s'.unitReset := by
  rw [State.unitReset, State.unitReset, hagenda, hreplies]

/-- Settles O49: the soft reset is `unitReset`, whose fields do not depend on the unit's own state. -/
theorem softResetErasesEverything : Obligations.SoftResetErasesEverything := by
  intro s s' w hodd hagenda hreplies
  rw [hostTurn_softReset s hodd, hostTurn_softReset s' hodd, unitReset_eq_of_agenda_replies hagenda hreplies]
  exact ⟨rfl, rfl, rfl, getElem_unitReset_x s', congrArg _ hreplies.symm⟩

end Sys2Proof.Laws
